-- ==== Sys2Proof/Word.lean ====
section
/-! DEFINITION. Sys2Proof/Word.lean: the widths the spec gives its quantities (10_state.md, decision D4) and the
indices of its register arrays. Every quantity is unsigned (00_scope.md R11). -/

namespace Sys2Proof

/-- A byte of program memory; also the width of `LEN`, `LCNT`, `SDIV` and `DUR_ROM` (R22, R23, R31, R40). -/
abbrev Byte := BitVec 8

/-- A 16-bit register: cursors, offsets, phases, periods, thresholds, multipliers, tempo registers (R21 to R36). -/
abbrev Word := BitVec 16

/-- Half a command byte: `b[7:4]` or `b[3:0]` (R11, R100). -/
abbrev Nibble := BitVec 4

/-- A channel index, `CHANNELS = 4` (R4). -/
abbrev Chan := Fin 4

/-- The index of a pulse channel, one of the channels 0, 1, 2 (R4). -/
abbrev Pulse := Fin 3

/-- An index into the note table, `NOTE_ENTRIES = 13` (R4). -/
abbrev NoteIndex := Fin 13

end Sys2Proof
end

