-- ==== Sys2Proof/Config.lean ====
section
/-! DEFINITION. Sys2Proof/Config.lean: the implementation parameters of 00_scope.md R5 that the spec leaves open.

A value of `Config` holds ONLY the open entries. The fixed entries of R4 (`NOTE_ROM[1] = 1024`, `DUR_ROM[0..7]`) and
the constraints of R6 are put in by the table reads of Machine/Operands.lean, so every `Config` is a well-formed
configuration and every well-formed configuration is one `Config`: no claim needs a hypothesis about it.
Log entry 1. -/

namespace Sys2Proof

/-- The open parameters of the configuration record `CFG` (R5). -/
structure Config where
  /-- `NOTE_ROM[0]`, the rest sentinel. -/
  noteRest : Word
  /-- `NOTE_ROM[2..12]`; entry `k` here is `NOTE_ROM[k + 2]`. -/
  noteOpen : Vector Word 11
  /-- `DUR_ROM[8..15]`; entry `k` here is `DUR_ROM[k + 8]`. -/
  durOpen : Vector Byte 8
  /-- The sample bank: bit `i` is `SAMPLE_BIT(i)`, `i` in 0..1015, in playing order (R75). -/
  sampleBank : BitVec 1016
  /-- Six words from which `SAMPLE_START[0..5]` is read; a nondecreasing table ending at most at 1016 is read as it
  stands (`Machine.sampleStart`). -/
  startRaw : Vector Word 6
  /-- `SAMPLE_DIV`, the prescaler's reload value. -/
  sampleDiv : Byte
  /-- `TEMPO_RESET`, the value PLAY gives `TEMPO_RELOAD`. -/
  tempoReset : Word
  /-- `OCT_RESET`, the value PLAY gives every `OCT[c]`. -/
  octReset : Word
  /-- `FETCH_LIMIT - 1`: the limit is at least 1 (R5, R6). -/
  fetchLimitPred : Nat
  deriving DecidableEq, Repr, Inhabited

/-- The configuration of the device that comes out of reset: a free value, of which nothing can be proved.
DESIGN CHOICE (log entry 1): the spec prints none of these constants (R5, decision D26). -/
opaque Config.device : Config

/-- What a read of the sample bank past its 1016 bits answers: a free value. No reachable state makes such a read
(R80, R46); log entry 2. -/
opaque Config.bitOutsideBank : Nat → Bool

end Sys2Proof
end

