-- ==== Sys2Proof/Machine/Operands.lean ====
section
/-! DEFINITION. Sys2Proof/Machine/Operands.lean: what an operand stands for (30_encoding.md R102), the reads of the four
constant tables (R4, R5, R80) and the arithmetic of 00_scope.md R12. -/

namespace Sys2Proof.Machine

/-- `NOTE_ROM[i]` (R5); entry 1 is 1024 (R4). -/
def noteRom (g : Config) (i : NoteIndex) : Word :=
  if i.val = 0 then g.noteRest
  else if i.val = 1 then 1024#16
  else g.noteOpen[i.val - 2]'(by have := i.isLt; omega)

/-- `DUR_ROM[lo]` (R233); entries 0 to 7 are `127 >> lo` (R4). -/
def durRom (g : Config) (lo : Nibble) : Byte :=
  if lo.toNat < 8 then 127#8 >>> lo.toNat
  else g.durOpen[lo.toNat - 8]'(by have := lo.isLt; omega)

/-- `SAMPLE_BIT(i)`, `i` in 0..1015 (R75). Past the bank the answer is a free value (log entry 2). -/
def sampleBit (g : Config) (i : Nat) : Bool :=
  if i < 1016 then g.sampleBank.getLsbD i else Config.bitOutsideBank i

/-- `SAMPLE_START[k]` (R5). The running maximum, cut off at 1016, of the raw words: a table that meets R6 is read as it
stands, and what is read always meets R6. -/
def sampleStart (g : Config) (k : Fin 6) : Word :=
  BitVec.ofNat 16 (min 1016 (((g.startRaw.toList.take (k.val + 1)).map BitVec.toNat).foldl max 0))

/-- `FETCH_LIMIT` (R5), at least 1. -/
def fetchLimit (g : Config) : Nat := g.fetchLimitPred + 1

/-- The octave multiplier `1 << lo` (R220). -/
def octaveOf (lo : Nibble) : Word := 1#16 <<< lo.toNat

/-- The tempo reload value `zext_16(op) << 4` (R194). -/
def tempoOf (op : Byte) : Word := op.setWidth 16 <<< 4

/-- The count a loop-start pushes, `op - 1` (R190); `op` is not 0 where it is used. -/
def loopCountOf (op : Byte) : Byte := op - 1#8

/-- The duty threshold of a note, `P >> v` (R231). -/
def dutyOf (period : Word) (v : BitVec 3) : Word := period >>> v.toNat

/-- The byte offset of slot `slot`, `2 * slot` (R71, R73). -/
def slotAddr (slot : Nat) : Nat := 2 * slot

/-- The macro slot of CALL, `op + 4` (R102, R193). -/
def macroSlot (op : Byte) : Nat := op.toNat + 4

/-- The phase accumulator after one tick (R153): an exact sum, one subtraction of the period when the sum reaches it, and
the low 16 bits of the result. -/
def phaseAfter (phase oct period : Word) : Word :=
  let s := phase.toNat + oct.toNat
  BitVec.ofNat 16 (if period.toNat ≤ s then s - period.toNat else s)

end Sys2Proof.Machine
end

