-- ==== Sys2Proof/Syntax.lean ====
section
/-! DEFINITION. Sys2Proof/Syntax.lean: the commands of the bytecode (30_encoding.md R103 to R105, opcode_table.json).

One constructor per mnemonic of the table. The twelve NOTE rows are one command whose pitch operand is the high nibble,
and the eight ILLEGAL_EXT rows one command whose operand is the low nibble: opcode_table.json splits them only because
a range is not a single mask. The illegal encodings are commands: they have an effect, a fault (R107). -/

namespace Sys2Proof

/-- A command of the MMML bytecode, with its operands as fields of the encoding (R102). -/
inductive Instr where
  /-- `REST d` (R230): a rest of duration `DUR_ROM[d]`. -/
  | rest (d : Nibble)
  /-- `NOTE p, d` (R231, R232): note `p` on a pulse channel, waveform `p - 1` on channel 3 (alias `SMP p-1, d`). -/
  | note (p : NoteIndex) (d : Nibble)
  /-- `OCT n` (R220): octave multiplier `1 << n`. -/
  | oct (n : Nibble)
  /-- `VOL v` (R221): volume `v`. -/
  | vol (v : BitVec 3)
  /-- First bytes `0xE8`..`0xEF` (R107, R221): `F_VOLUME`; `x` is the ignored `byte0[2:0]`. -/
  | illegalVol (x : BitVec 3)
  /-- `LOOPS n` (R190): loop-start, the body runs `op` times in all. -/
  | loops (op : Byte)
  /-- `LOOPE` (R191): loop-end. -/
  | loope
  /-- `CALL m` (R193): macro-call. -/
  | call (op : Byte)
  /-- `TEMPO t` (R194): tempo-change. -/
  | tempo (op : Byte)
  /-- `RSV4 x` (R195): reserved, no effect. -/
  | rsv4 (op : Byte)
  /-- `RSV5 x` (R196): reserved, no effect. -/
  | rsv5 (op : Byte)
  /-- `TIE` (R197): no effect. -/
  | tie
  /-- First bytes `0xF7`..`0xFE` (R107, R199): `F_ILLEGAL`; `lo` is the low nibble, 7..14. -/
  | illegalExt (lo : Nibble)
  /-- `RET` (R198): return from a macro, or restart the track. -/
  | ret
  deriving DecidableEq, Repr

end Sys2Proof
end

