-- ==== Sys2Proof/Machine/State.lean ====
section
/-! DEFINITION. Sys2Proof/Machine/State.lean: the registers of 10_state.md R21 to R38, the environment's plain data
(configuration, program memory, schedule of strobes; R43) and the locals of a TICK in progress (R134, R174). -/

namespace Sys2Proof.Machine

/-- Program memory (R70): pairs of a byte offset and the byte there, offsets strictly rising, none at 65536 or above and
none equal to what an unlisted offset reads as (`Memory.wf`, Machine/Ops.lean). -/
abbrev Memory := List Host.Cell

/-- The sequencer registers of one channel: bank `c` (R21 to R26). -/
structure Bank where
  /-- `CUR`, the program cursor (R21). -/
  cur : Word
  /-- `LEN`, the remaining sounding length (R22). -/
  len : Byte
  /-- `LSP`, the number of live loop-stack entries, 0..5 (R23). -/
  lsp : Fin 6
  /-- `LRET[k]`, the return offsets of the loop stack (R23). -/
  lret : Vector Word 5
  /-- `LCNT[k]`, the remaining repeats of the loop stack (R23). -/
  lcnt : Vector Byte 5
  /-- `RET`, the saved return offset (R24). -/
  ret : Word
  /-- `RETV`, whether the return slot holds a value (R24). -/
  retv : Bool
  /-- `OCT`, the octave multiplier (R25). -/
  oct : Word
  /-- `VOL`, the volume, a shift amount (R26). -/
  vol : BitVec 3
  deriving DecidableEq, Repr, Inhabited

/-- The oscillator registers of one pulse channel (R27 to R29). -/
structure Osc where
  /-- `PHASE`, the phase accumulator (R27). -/
  phase : Word
  /-- `PERIOD`, the note period (R28). -/
  period : Word
  /-- `DUTY`, the duty threshold (R29). -/
  duty : Word
  deriving DecidableEq, Repr, Inhabited

/-- Fault causes (R251); the code of each is `Cause.code` (Machine/Ops.lean). -/
inductive Cause where
  | progLen
  | fetchRange
  | illegal
  | loopOvf
  | loopUnf
  | loopCount
  | macroId
  | sampleId
  | volume
  | fetchLimit
  deriving DecidableEq, Repr

/-- A host command (R130 to R133). -/
inductive Command where
  /-- INIT (R131). -/
  | init
  /-- PLAY (R132) with `CMD_LEN` and `CMD_MACROS`. `image` is what the host has placed in program memory, from offset 0
  on, for this PLAY (R7, R282); empty when it leaves the memory as it is. -/
  | play (image : List Byte) (len : Nat) (macros : BitVec 9)
  /-- STOP (R133). -/
  | stop
  deriving DecidableEq, Repr

/-- What arrives at the block next (R130, R136). -/
inductive Strobe where
  /-- The tick source's strobe. -/
  | tick
  /-- A host command. -/
  | command (k : Command)
  /-- A host command and a TICK strobe together: the command is performed first (R136). -/
  | both (k : Command)
  /-- The `RESET` signal (R130, R280). -/
  | reset
  deriving DecidableEq, Repr

/-- The whole machine. -/
structure State where
  /-- The four sequencer banks (R21 to R26). -/
  banks : Vector Bank 4
  /-- The three oscillators (R27 to R29). -/
  oscs : Vector Osc 3
  /-- `CHOUT[c]`, the output bit of each channel (R30). -/
  chout : Vector Bool 4
  /-- `SDIV`, the sample prescaler countdown (R31). -/
  sdiv : Byte
  /-- `SCUR`, the sample playback index (R32). -/
  scur : Word
  /-- `SEND`, the end index of the selected waveform (R32). -/
  send : Word
  /-- `TEMPO_CNT`, the tempo countdown (R33). -/
  tempoCnt : Word
  /-- `TEMPO_RELOAD`, its reload value (R34). -/
  tempoReload : Word
  /-- `BOUND`, whether a program is bound (R35). -/
  bound : Bool
  /-- `PROG_LEN`, the length of the bound program (R36). -/
  progLen : Word
  /-- `MACRO_COUNT`, the number of macro slots (R36). -/
  macroCount : BitVec 9
  /-- `OUT`, the combined output value (R37). -/
  out : Bool
  /-- `FAULT` (R38). -/
  fault : Bool
  /-- `FCODE`, the cause code (R38). -/
  fcode : BitVec 4
  /-- `FCHAN`, the channel whose command faulted (R38). -/
  fchan : BitVec 2
  /-- `FADDR`, the offending program offset (R38). -/
  faddr : Word
  /-- `CFG`, which no step writes (R5, R43). Log entry 1. -/
  cfg : Config
  /-- The bytes of program memory, which the core never writes (R43, R85). Log entries 3 and 4. -/
  mem : Memory
  /-- The strobes to come, the next one first (R43, R136). When there is none the tick source presents a TICK.
  Log entry 5. -/
  schedule : List Strobe
  /-- A sequencer pass is in progress: the current TICK has run its synthesizer stage and reloaded the tempo countdown,
  and no strobe is looked at until it ends (R136). This and the next three fields are the locals of R134 and R174, not
  registers; they are false and 0 between the core's steps. Log entry 6. -/
  inPass : Bool
  /-- The channel the pass has come to: `c` of R171. -/
  chan : Chan
  /-- The administrative commands the channel has executed in this pass: `n` of R174. -/
  nAdmin : Nat
  /-- The combined output of this TICK: `comb` of R134. -/
  comb : Bool
  deriving DecidableEq, Repr

/-- A model fault. There is none: whatever the spec calls a fault is a NEXT state with the fault record written (R253), and
everything else it gives an effect (93_implementation_defined.md: nothing is left stuck). So no meaning can answer one
(safe: there is nothing here that a claim could lean on). -/
inductive Fault where
  deriving DecidableEq, Repr

/-- Why an instruction is not run. -/
inductive Refusal where
  /-- Raised by `exec` alone, for an instruction that has no meaning yet; no arm raises it now. Safe: the machine stops
  where the hardware would go on. -/
  | notModelled (mnemonic : String)
  deriving DecidableEq, Repr

/-- A bank after INIT: every register 0 (R44). -/
def Bank.zero : Bank :=
  { cur := 0, len := 0, lsp := 0, lret := Vector.replicate 5 0, lcnt := Vector.replicate 5 0, ret := 0, retv := false,
    oct := 0, vol := 0 }

/-- An oscillator after INIT: every register 0 (R44). -/
def Osc.zero : Osc := { phase := 0, period := 0, duty := 0 }

/-- The machine right after reset: every register of R21 to R38 is 0 (R44, R280). The configuration is the device's own,
of which nothing is known (log entry 1); no byte of program memory has been placed (log entry 3); no strobe is planned
(log entry 5); no TICK is in progress. -/
def State.reset : State :=
  { banks := Vector.replicate 4 Bank.zero
    oscs := Vector.replicate 3 Osc.zero
    chout := Vector.replicate 4 false
    sdiv := 0
    scur := 0
    send := 0
    tempoCnt := 0
    tempoReload := 0
    bound := false
    progLen := 0
    macroCount := 0
    out := false
    fault := false
    fcode := 0
    fchan := 0
    faddr := 0
    cfg := Config.device
    mem := []
    schedule := []
    inPass := false
    chan := 0
    nAdmin := 0
    comb := false }

end Sys2Proof.Machine
end

