-- ==== Sys2Proof/Machine/Ops.lean ====
section
/-! DEFINITION. Sys2Proof/Machine/Ops.lean: the operations the commands share: reads of program memory (20_memory.md),
access to the register banks, raising a fault (60_exceptions.md R253), and the ends of a command (R174, R234). -/

namespace Sys2Proof.Machine

/-! ### Program memory -/

/-- What an offset of program memory reads as when no byte has been placed there. DESIGN CHOICE (log entry 3). -/
def blankByte : Byte := 0#8

/-- The byte at offset `a`. -/
def Memory.read : Memory → Nat → Byte
  | [], _ => blankByte
  | (k, v) :: rest, a => if k = a then v else Memory.read rest a

/-- The list with byte `v` at offset `a`, kept in canonical form. -/
def Memory.insert : Memory → Nat → Byte → Memory
  | [], a, v => if v = blankByte then [] else [(a, v)]
  | (k, w) :: rest, a, v =>
    if a < k then
      if v = blankByte then (k, w) :: rest else (a, v) :: (k, w) :: rest
    else if a = k then
      if v = blankByte then rest else (a, v) :: rest
    else (k, w) :: Memory.insert rest a v

/-- A byte placed by the HOST at offset `a`; the core has no write (R85). The port has 16 bits of offset (R70): there is
nothing at 65536 or above to place a byte at. -/
def Memory.place (m : Memory) (a : Nat) (v : Byte) : Memory :=
  if a < 65536 then Memory.insert m a v else m

/-- A byte sequence placed by the HOST from offset `a` on. -/
def Memory.load : Memory → Nat → List Byte → Memory
  | m, _, [] => m
  | m, a, b :: bs => Memory.load (Memory.place m a b) (a + 1) bs

/-- Offsets strictly rising from `lo` on, below 65536, no byte equal to `blankByte`. -/
def Memory.wfFrom : Nat → Memory → Bool
  | _, [] => true
  | lo, (k, v) :: rest => decide (lo ≤ k) && decide (k < 65536) && decide (v ≠ blankByte) && Memory.wfFrom (k + 1) rest

/-- The canonical form of a memory: equal memories are equal lists. -/
def Memory.wf (m : Memory) : Bool := Memory.wfFrom 0 m

/-- `MemRead(addr, 1)` (R72): the byte at `addr`, or the offending offset when `addr >= PROG_LEN`. -/
def memRead1 (s : State) (addr : Nat) : Except Nat Byte :=
  if addr < s.progLen.toNat then .ok (s.mem.read addr) else .error addr

/-- `MemRead(addr, 2)` (R73): two one-byte reads, in order, the first byte the more significant. -/
def memRead2 (s : State) (addr : Nat) : Except Nat Word :=
  match memRead1 s addr with
  | .error x => .error x
  | .ok hi =>
    match memRead1 s (addr + 1) with
    | .error x => .error x
    | .ok lo => .ok (hi ++ lo)

/-- The big-endian word at offset `addr` of the memory, whatever its length (R73). -/
def Memory.word (m : Memory) (addr : Nat) : Word := m.read addr ++ m.read (addr + 1)

/-! ### Registers -/

/-- Bank `c`. -/
def State.bank (s : State) (c : Chan) : Bank := s.banks[c]

/-- The state with bank `c` replaced. -/
def State.setBank (s : State) (c : Chan) (b : Bank) : State := { s with banks := s.banks.set c b }

/-- Oscillator `c`. -/
def State.osc (s : State) (c : Pulse) : Osc := s.oscs[c]

/-- The state with oscillator `c` replaced. -/
def State.setOsc (s : State) (c : Pulse) (o : Osc) : State := { s with oscs := s.oscs.set c o }

/-- The output bit `CHOUT[c]`. -/
def State.outBit (s : State) (c : Chan) : Bool := s.chout[c]

/-- The state with `CHOUT[c]` replaced. -/
def State.setOutBit (s : State) (c : Chan) (b : Bool) : State := { s with chout := s.chout.set c b }

/-- The bank of the channel being stepped. A command reads and writes no other (10_state.md section 2). -/
def State.here (s : State) : Bank := s.bank s.chan

/-- The state with the bank of the channel being stepped replaced. -/
def State.setHere (s : State) (b : Bank) : State := s.setBank s.chan b

/-- `a`: the offset of the command being executed (R11, R21). -/
def State.at (s : State) : Nat := s.here.cur.toNat

/-- The oscillator index of a channel below 3. -/
def pulseOf (c : Chan) (h : c.val < 3) : Pulse := ⟨c.val, h⟩

/-- The channel of an oscillator. -/
def chanOf (c : Pulse) : Chan := ⟨c.val, by have := c.isLt; omega⟩

/-! ### The fault record -/

/-- The code of a fault cause (R251). -/
def Cause.code : Cause → BitVec 4
  | .progLen => 1
  | .fetchRange => 2
  | .illegal => 3
  | .loopOvf => 4
  | .loopUnf => 5
  | .loopCount => 6
  | .macroId => 7
  | .sampleId => 8
  | .volume => 9
  | .fetchLimit => 10

/-! ### The ends of a command, a channel and a TICK -/

/-- No TICK is in progress: its locals are gone. -/
def leavePass (s : State) : State := { s with inPass := false, chan := 0, nAdmin := 0, comb := false }

/-- `raise Fault(cause)` with offending offset `x`, in the channel being stepped (R253): the record is written, O goes low
and the rest of the step is abandoned; nothing else is written. -/
def raiseFault (cause : Cause) (x : Nat) (s : State) : State :=
  leavePass
    { s with
      fault := true
      fcode := cause.code
      fchan := BitVec.ofNat 2 s.chan.val
      faddr := BitVec.ofNat 16 x
      out := false }

/-- After an administrative command the fetch loop of the channel goes on, one command further (R174). -/
def continueLoop (s : State) : State := { s with nAdmin := s.nAdmin + 1 }

/-- The last line of TICK, `OUT <- comb` (R134). -/
def endTick (s : State) : State := leavePass { s with out := s.comb }

/-- The channel is done with in this pass: the next higher channel is stepped, and after channel 3 the TICK ends (R171,
R172, R134). -/
def endChannel (s : State) : State :=
  if h : s.chan.val < 3 then { s with chan := ⟨s.chan.val + 1, by omega⟩, nAdmin := 0 } else endTick s

/-- The tail of an administrative command that ends with `CUR[c] <- target`. -/
def continueAt (target : Word) (s : State) : State :=
  continueLoop (s.setHere { s.here with cur := target })

/-- The tail every sounding event shares (R233, R234): `LEN[c] <- DUR_ROM[lo]`, `CUR[c] <- a + 1`, and the fetch loop of
the channel ends for this pass. -/
def soundingTail (lo : Nibble) (s : State) : State :=
  endChannel (s.setHere { s.here with len := durRom s.cfg lo, cur := s.here.cur + 1 })

/-- The operand-only effect of the reserved commands: the cursor moves past both bytes (R108). -/
def skipTwo (s : State) : State := continueAt (s.here.cur + 2) s

end Sys2Proof.Machine
end

