-- ==== Sys2Proof/Machine/Flags.lean ====
section
/-! DEFINITION. Sys2Proof/Machine/Flags.lean: the hardware has no condition codes (10_state.md R39); these are the
predicates over registers that R39 lists, the only conditions a command's or a tick's behaviour depends on. -/

namespace Sys2Proof.Machine

/-- `BOUND = 1` and `FAULT = 0`: a TICK does something (R134). -/
abbrev live (s : State) : Prop := s.bound = true ∧ s.fault = false

/-- `LEN[c] != 0`: the channel holds its event (R173). -/
abbrev holding (b : Bank) : Prop := b.len ≠ 0#8

/-- `TEMPO_CNT = 0`: this tick runs a sequencer pass (R170). -/
abbrev tempoElapsed (s : State) : Prop := s.tempoCnt = 0#16

/-- `SDIV = 0`: the sample prescaler fires (R151). -/
abbrev prescalerFires (s : State) : Prop := s.sdiv = 0#8

/-- `SCUR < SEND`: a waveform is playing (R151). -/
abbrev samplePlaying (s : State) : Prop := s.scur.toNat < s.send.toNat

/-- `PHASE <= DUTY`: the pulse channel is high (R154). -/
abbrev dutyHigh (o : Osc) : Prop := o.phase.toNat ≤ o.duty.toNat

/-- `op >= MACRO_COUNT`: CALL names no macro (R193). -/
abbrev macroUndefined (s : State) (op : Byte) : Prop := s.macroCount.toNat ≤ op.toNat

/-- A channel that has an oscillator, `c < 3` (R231). -/
abbrev isPulse (c : Chan) : Prop := c.val < 3

/-- `CHOUT[0] | CHOUT[1] | CHOUT[2] | CHOUT[3]` (R155). -/
def combined (s : State) : Bool := s.outBit 0 || s.outBit 1 || s.outBit 2 || s.outBit 3

end Sys2Proof.Machine
end

