-- ==== Sys2Proof/Machine/Admin.lean ====
section
/-! DEFINITION. Sys2Proof/Machine/Admin.lean: OCT, VOL and the illegal volumes (44_admin_events.md). -/

namespace Sys2Proof.Machine

/-- `OCT n` (R220). -/
def execOct (n : Nibble) (s : State) : Host.Outcome State Fault Refusal :=
  .next (continueAt (s.here.cur + 1) (s.setHere { s.here with oct := octaveOf n }))

/-- `VOL v` (R221). -/
def execVol (v : BitVec 3) (s : State) : Host.Outcome State Fault Refusal :=
  .next (continueAt (s.here.cur + 1) (s.setHere { s.here with vol := v }))

/-- First bytes `0xE8`..`0xEF` (R221): `F_VOLUME`, the low bits ignored. -/
def execIllegalVol (_x : BitVec 3) (s : State) : Host.Outcome State Fault Refusal :=
  .next (raiseFault .volume s.at s)

end Sys2Proof.Machine
end

