-- ==== Sys2Proof/Machine/Extended.lean ====
section
/-! DEFINITION. Sys2Proof/Machine/Extended.lean: the extended commands (43_extended_commands.md). The range check of an
operand byte comes before the command and is in Machine/Sequencer.lean (R255). -/

namespace Sys2Proof.Machine

/-- `LOOPS n` (R190): the count check, the depth check, the push. -/
def execLoops (op : Byte) (s : State) : Host.Outcome State Fault Refusal :=
  let b := s.here
  if op = 0#8 then .next (raiseFault .loopCount s.at s)
  else if h : b.lsp.val < 5 then
    .next (continueAt (b.cur + 2)
      (s.setHere
        { b with
          lret := b.lret.set b.lsp.val (b.cur + 2)
          lcnt := b.lcnt.set b.lsp.val (loopCountOf op)
          lsp := ⟨b.lsp.val + 1, by omega⟩ }))
  else .next (raiseFault .loopOvf s.at s)

/-- `LOOPE` (R191): jump back while the top entry has repeats left, else pop; a popped entry keeps its bits. -/
def execLoope (s : State) : Host.Outcome State Fault Refusal :=
  let b := s.here
  if h : b.lsp.val = 0 then .next (raiseFault .loopUnf s.at s)
  else
    have top : b.lsp.val - 1 < 5 := by have := b.lsp.isLt; omega
    if b.lcnt[b.lsp.val - 1] = 0#8 then
      .next (continueAt (b.cur + 1) (s.setHere { b with lsp := ⟨b.lsp.val - 1, by omega⟩ }))
    else
      .next (continueAt b.lret[b.lsp.val - 1]
        (s.setHere { b with lcnt := b.lcnt.set (b.lsp.val - 1) (b.lcnt[b.lsp.val - 1] - 1#8) }))

/-- `CALL m` (R193): the id check, the slot read, the return slot written over. -/
def execCall (op : Byte) (s : State) : Host.Outcome State Fault Refusal :=
  if macroUndefined s op then .next (raiseFault .macroId s.at s)
  else
    match memRead2 s (slotAddr (macroSlot op)) with
    | .error x => .next (raiseFault .fetchRange x s)
    | .ok t => .next (continueAt t (s.setHere { s.here with ret := s.here.cur + 2, retv := true }))

/-- `RET` (R198): return and clear the slot, or restart the track from the channel's header slot, which is read again. The
slot read is a `MemRead` like any other (R72); it is in range whenever `PROG_LEN >= 8`. -/
def execRet (s : State) : Host.Outcome State Fault Refusal :=
  if s.here.retv = true then
    .next (continueAt s.here.ret (s.setHere { s.here with ret := 0, retv := false }))
  else
    match memRead2 s (slotAddr s.chan.val) with
    | .error x => .next (raiseFault .fetchRange x s)
    | .ok t => .next (continueAt t s)

/-- `TEMPO t` (R194): the one command with a global effect. -/
def execTempo (op : Byte) (s : State) : Host.Outcome State Fault Refusal :=
  .next (continueAt (s.here.cur + 2) { s with tempoReload := tempoOf op })

/-- `RSV4 x` (R195): the operand is ignored. -/
def execRsv4 (_op : Byte) (s : State) : Host.Outcome State Fault Refusal := .next (skipTwo s)

/-- `RSV5 x` (R196): the operand is ignored. -/
def execRsv5 (_op : Byte) (s : State) : Host.Outcome State Fault Refusal := .next (skipTwo s)

/-- `TIE` (R197). -/
def execTie (s : State) : Host.Outcome State Fault Refusal := .next (continueAt (s.here.cur + 1) s)

/-- First bytes `0xF7`..`0xFE` (R199): `F_ILLEGAL`. -/
def execIllegalExt (_lo : Nibble) (s : State) : Host.Outcome State Fault Refusal :=
  .next (raiseFault .illegal s.at s)

end Sys2Proof.Machine
end

