-- ==== Sys2Proof/Machine/Sounding.lean ====
section
/-! DEFINITION. Sys2Proof/Machine/Sounding.lean: REST and NOTE (45_sounding_events.md). -/

namespace Sys2Proof.Machine

/-- `REST d` (R230): a zero duty threshold on a pulse channel, a pure wait on channel 3. -/
def execRest (d : Nibble) (s : State) : Host.Outcome State Fault Refusal :=
  if h : isPulse s.chan then
    let c := pulseOf s.chan h
    .next (soundingTail d (s.setOsc c { s.osc c with duty := 0 }))
  else .next (soundingTail d s)

/-- The pulse half of NOTE (R231): the period, and the threshold from the current volume. -/
def pulseNote (c : Pulse) (p : NoteIndex) (s : State) : State :=
  s.setOsc c { s.osc c with period := noteRom s.cfg p, duty := dutyOf (noteRom s.cfg p) s.here.vol }

/-- SampleSelect for `hi` in 1..5 (R232). -/
def sampleSelect (p : NoteIndex) (h : p.val ≤ 5) (s : State) : State :=
  { s with
    scur := sampleStart s.cfg ⟨p.val - 1, by omega⟩
    send := sampleStart s.cfg ⟨p.val, by omega⟩ }

/-- `NOTE p, d` (R231, R232). -/
def execNote (p : NoteIndex) (d : Nibble) (s : State) : Host.Outcome State Fault Refusal :=
  if h : isPulse s.chan then .next (soundingTail d (pulseNote (pulseOf s.chan h) p s))
  else if h5 : p.val ≤ 5 then .next (soundingTail d (sampleSelect p h5 s))
  else .next (raiseFault .sampleId s.at s)

end Sys2Proof.Machine
end

