-- ==== Sys2Proof/Machine/Dispatch.lean ====
section
/-! DEFINITION. Sys2Proof/Machine/Dispatch.lean: one arm per command (42_sequencer_dispatch.md R176). -/

namespace Sys2Proof.Machine

def exec (i : Instr) (s : State) : Host.Outcome State Fault Refusal :=
  match i with
  | .rest d => Sys2Proof.Machine.execRest d s
  | .note p d => Sys2Proof.Machine.execNote p d s
  | .oct n => Sys2Proof.Machine.execOct n s
  | .vol v => Sys2Proof.Machine.execVol v s
  | .illegalVol x => Sys2Proof.Machine.execIllegalVol x s
  | .loops op => Sys2Proof.Machine.execLoops op s
  | .loope => Sys2Proof.Machine.execLoope s
  | .call op => Sys2Proof.Machine.execCall op s
  | .tempo op => Sys2Proof.Machine.execTempo op s
  | .rsv4 op => Sys2Proof.Machine.execRsv4 op s
  | .rsv5 op => Sys2Proof.Machine.execRsv5 op s
  | .tie => Sys2Proof.Machine.execTie s
  | .illegalExt lo => Sys2Proof.Machine.execIllegalExt lo s
  | .ret => Sys2Proof.Machine.execRet s

end Sys2Proof.Machine
end

