-- ==== Sys2Proof/WellFormed.lean ====
section
/-! DEFINITION. Sys2Proof/WellFormed.lean: which terms of `Instr` stand for bytes of a program (30_encoding.md R103). -/

namespace Sys2Proof

/-- `NOTE` has `hi` in 1..12 (R104; `hi = 0` is REST) and an illegal extended byte has `lo` in 7..14 (R107); every other
operand is legal at every value of its field (R102). -/
def Instr.wellFormed : Instr → Bool
  | .note p _ => decide (1 ≤ p.val)
  | .illegalExt lo => decide (7 ≤ lo.toNat) && decide (lo.toNat ≤ 14)
  | .rest _ | .oct _ | .vol _ | .illegalVol _ | .loops _ | .loope | .call _ | .tempo _ | .rsv4 _ | .rsv5 _ | .tie
  | .ret => true

end Sys2Proof
end

