-- ==== Sys2Proof/Decode.lean ====
section
/-! DEFINITION. Sys2Proof/Decode.lean: bytes to commands (30_encoding.md R101, R103), the encoder, and the opcode table
(spec/opcode_table.json) as rows of mask and match. -/

namespace Sys2Proof

/-- `b[7:4]` (R11, R100). -/
def hiNibble (b : Byte) : Nibble := b.extractLsb' 4 4

/-- `b[3:0]` (R11, R100). -/
def loNibble (b : Byte) : Nibble := b.extractLsb' 0 4

/-- A two-byte command, format X2: first bytes `0xF0`, `0xF2`, `0xF3`, `0xF4`, `0xF5` (R101). Every other legal
first byte is a command of one byte, and so, by the model's choice, is an illegal one (log entry 11). -/
def takesOperand (b : Byte) : Bool :=
  b == 0xF0#8 || b == 0xF2#8 || b == 0xF3#8 || b == 0xF4#8 || b == 0xF5#8

/-- A sounding event: `hi <= 12` (R106, R174). Every other first byte, an illegal one included, counts as an
administrative command (R176). -/
def isSounding (b : Byte) : Bool := decide ((hiNibble b).toNat ≤ 12)

/-- The extended commands, by low nibble (R103, R105). -/
def decodeExtended (lo : Nibble) (op : Byte) : Instr :=
  match lo.toNat with
  | 0 => .loops op
  | 1 => .loope
  | 2 => .call op
  | 3 => .tempo op
  | 4 => .rsv4 op
  | 5 => .rsv5 op
  | 6 => .tie
  | 15 => .ret
  | _ => .illegalExt lo

/-- The decode procedure of R103 on a first byte `b`; `op` is the operand byte, read by a format X2 command only. Total:
every first byte is a command (R103). -/
def decodeCommand (b op : Byte) : Instr :=
  let hi := hiNibble b
  let lo := loNibble b
  if hi = 0#4 then .rest lo
  else if h : hi.toNat ≤ 12 then .note ⟨hi.toNat, by omega⟩ lo
  else if hi = 13#4 then .oct lo
  else if hi = 14#4 then
    if lo.toNat ≤ 7 then .vol (lo.setWidth 3) else .illegalVol (lo.setWidth 3)
  else decodeExtended lo op

/-- Why a list of bytes holds no whole command. -/
inductive DecodeError where
  /-- There is no first byte. -/
  | noByte
  /-- The first byte is a format X2 command and there is no operand byte. -/
  | noOperand
  deriving DecidableEq, Repr

/-- The command at the head of a list of bytes, and the bytes after it (R100, R101). -/
def decode : List Byte → Except DecodeError (Instr × List Byte)
  | [] => .error .noByte
  | b :: rest =>
    if takesOperand b then
      match rest with
      | [] => .error .noOperand
      | op :: rest' => .ok (decodeCommand b op, rest')
    else .ok (decodeCommand b 0#8, rest)

/-- The bytes of a command (R104, R105; the `encoding` column of opcode_table.json). DESIGN CHOICE: one byte for an
illegal encoding (log entry 11). -/
def encode : Instr → List Byte
  | .rest d => [(0b0000#4 ++ d : Byte)]
  | .note p d => [(BitVec.ofNat 4 p.val ++ d : Byte)]
  | .oct n => [(0b1101#4 ++ n : Byte)]
  | .vol v => [(0b11100#5 ++ v : Byte)]
  | .illegalVol x => [(0b11101#5 ++ x : Byte)]
  | .loops op => [0b11110000#8, op]
  | .loope => [0b11110001#8]
  | .call op => [0b11110010#8, op]
  | .tempo op => [0b11110011#8, op]
  | .rsv4 op => [0b11110100#8, op]
  | .rsv5 op => [0b11110101#8, op]
  | .tie => [0b11110110#8]
  | .illegalExt lo => [(0b1111#4 ++ lo : Byte)]
  | .ret => [0b11111111#8]

/-- The length of a command in bytes: 2 in format X2, 1 in formats E and X1 (R100, R101). DESIGN CHOICE: an illegal encoding
has length 1; R101 leaves its length undefined (fault) (log entry 11). -/
def Instr.length : Instr → Nat
  | .loops _ | .call _ | .tempo _ | .rsv4 _ | .rsv5 _ => 2
  | .rest _ | .note _ _ | .oct _ | .vol _ | .illegalVol _ | .loope | .tie | .illegalExt _ | .ret => 1

/-- The class of a command (R106): REST and NOTE are sounding; every other command, the illegal encodings among them
(R176), is administrative for the fetch loop. -/
def Instr.sounding : Instr → Bool
  | .rest _ | .note _ _ => true
  | .oct _ | .vol _ | .illegalVol _ | .loops _ | .loope | .call _ | .tempo _ | .rsv4 _ | .rsv5 _ | .tie
  | .illegalExt _ | .ret => false

/-- The mnemonic of a command, as spec/opcode_table.json spells it. -/
def Instr.mnemonic : Instr → String
  | .rest _ => "REST"
  | .note _ _ => "NOTE"
  | .oct _ => "OCT"
  | .vol _ => "VOL"
  | .illegalVol _ => "ILLEGAL_VOL"
  | .loops _ => "LOOPS"
  | .loope => "LOOPE"
  | .call _ => "CALL"
  | .tempo _ => "TEMPO"
  | .rsv4 _ => "RSV4"
  | .rsv5 _ => "RSV5"
  | .tie => "TIE"
  | .illegalExt _ => "ILLEGAL_EXT"
  | .ret => "RET"

/-- A row of spec/opcode_table.json: `mask` and `pattern` (its `match`) apply to the first byte. -/
structure OpcodeRow where
  mnemonic : String
  pattern : Byte
  mask : Byte
  deriving DecidableEq, Repr

/-- The first byte `b` belongs to the row. -/
def OpcodeRow.matches (r : OpcodeRow) (b : Byte) : Bool := b &&& r.mask == r.pattern

/-- The rows of format E: one REST, twelve NOTE, OCT, VOL and the illegal volumes. -/
def opcodeRowsEvent : List OpcodeRow :=
  [⟨"REST", 0x00#8, 0xF0#8⟩,
   ⟨"NOTE", 0x10#8, 0xF0#8⟩, ⟨"NOTE", 0x20#8, 0xF0#8⟩, ⟨"NOTE", 0x30#8, 0xF0#8⟩, ⟨"NOTE", 0x40#8, 0xF0#8⟩,
   ⟨"NOTE", 0x50#8, 0xF0#8⟩, ⟨"NOTE", 0x60#8, 0xF0#8⟩, ⟨"NOTE", 0x70#8, 0xF0#8⟩, ⟨"NOTE", 0x80#8, 0xF0#8⟩,
   ⟨"NOTE", 0x90#8, 0xF0#8⟩, ⟨"NOTE", 0xA0#8, 0xF0#8⟩, ⟨"NOTE", 0xB0#8, 0xF0#8⟩, ⟨"NOTE", 0xC0#8, 0xF0#8⟩,
   ⟨"OCT", 0xD0#8, 0xF0#8⟩, ⟨"VOL", 0xE0#8, 0xF8#8⟩, ⟨"ILLEGAL_VOL", 0xE8#8, 0xF8#8⟩]

/-- The rows of formats X1 and X2. -/
def opcodeRowsExtended : List OpcodeRow :=
  [⟨"LOOPS", 0xF0#8, 0xFF#8⟩, ⟨"LOOPE", 0xF1#8, 0xFF#8⟩, ⟨"CALL", 0xF2#8, 0xFF#8⟩, ⟨"TEMPO", 0xF3#8, 0xFF#8⟩,
   ⟨"RSV4", 0xF4#8, 0xFF#8⟩, ⟨"RSV5", 0xF5#8, 0xFF#8⟩, ⟨"TIE", 0xF6#8, 0xFF#8⟩,
   ⟨"ILLEGAL_EXT", 0xF7#8, 0xFF#8⟩, ⟨"ILLEGAL_EXT", 0xF8#8, 0xFF#8⟩, ⟨"ILLEGAL_EXT", 0xF9#8, 0xFF#8⟩,
   ⟨"ILLEGAL_EXT", 0xFA#8, 0xFF#8⟩, ⟨"ILLEGAL_EXT", 0xFB#8, 0xFF#8⟩, ⟨"ILLEGAL_EXT", 0xFC#8, 0xFF#8⟩,
   ⟨"ILLEGAL_EXT", 0xFD#8, 0xFF#8⟩, ⟨"ILLEGAL_EXT", 0xFE#8, 0xFF#8⟩, ⟨"RET", 0xFF#8, 0xFF#8⟩]

/-- The 32 rows of spec/opcode_table.json, in its order. -/
def opcodeTable : List OpcodeRow := opcodeRowsEvent ++ opcodeRowsExtended

/-- The two bytes an instruction word of the table stands for: byte 0 is `w[7:0]`, byte 1 is `w[15:8]`, and every bit
from `nbits` up is 0. -/
def tableWordBytes (nbits w : Nat) : Byte × Byte :=
  let v := w % 2 ^ nbits
  (BitVec.ofNat 8 v, BitVec.ofNat 8 (v / 256))

/-- The command the decoder reads from an opcode-table word `w` of `nbits` bits. -/
def decodeTableWord (nbits w : Nat) : Option Instr :=
  match decode [(tableWordBytes nbits w).1, (tableWordBytes nbits w).2] with
  | .ok (i, _) => some i
  | .error _ => none

end Sys2Proof
end

