-- ==== Sys2Proof/Machine/Control.lean ====
section
/-! DEFINITION. Sys2Proof/Machine/Control.lean: the host commands INIT, PLAY and STOP, hardware reset, and the block's
outputs (40_control_commands.md, 70_reset_and_hazards.md). -/

namespace Sys2Proof.Machine

/-- INIT (R131): every register of R21 to R38 is 0. The configuration, the bytes the host owns and the strobes to come
are not the core's. -/
def doInit (s : State) : State :=
  { State.reset with cfg := s.cfg, mem := s.mem, schedule := s.schedule }

/-- The bank PLAY gives channel `c` (R132, R45): the cursor from header slot `c`, the default octave and volume. -/
def playBank (g : Config) (m : Memory) (c : Chan) : Bank :=
  { Bank.zero with cur := m.word (slotAddr c.val), oct := g.octReset, vol := 1 }

/-- The oscillator PLAY gives a pulse channel (R132, R45): the sentinel period. -/
def playOsc (g : Config) : Osc := { Osc.zero with period := noteRom g 0 }

/-- PLAY (R132), with the program the host has placed (R7). -/
def doPlay (image : List Byte) (len : Nat) (macros : BitVec 9) (s : State) : State :=
  let z := doInit { s with mem := Memory.load s.mem 0 image }
  if len < 8 ∨ 65535 < len then raiseFault .progLen 0 z
  else
    { z with
      banks := Vector.ofFn (playBank z.cfg z.mem)
      oscs := Vector.replicate 3 (playOsc z.cfg)
      tempoReload := z.cfg.tempoReset
      bound := true
      progLen := BitVec.ofNat 16 len
      macroCount := macros }

/-- STOP (R133): identical to INIT. -/
def doStop (s : State) : State := doInit s

/-- The `RESET` signal (R130, R280): the effect of INIT. -/
def doReset (s : State) : State := doInit s

/-- A host command. -/
def perform (k : Command) (s : State) : State :=
  match k with
  | .init => doInit s
  | .play image len macros => doPlay image len macros s
  | .stop => doStop s

/-- The output wire O: the level of `OUT` at all times (R135). -/
def wireO (s : State) : Bool := s.out

/-- The `STATUS` signals (R130). -/
structure Status where
  bound : Bool
  fault : Bool
  fcode : BitVec 4
  fchan : BitVec 2
  faddr : Word
  deriving DecidableEq, Repr

/-- What the host reads on `STATUS`. -/
def status (s : State) : Status :=
  { bound := s.bound, fault := s.fault, fcode := s.fcode, fchan := s.fchan, faddr := s.faddr }

end Sys2Proof.Machine
end

