-- ==== Sys2Proof/Machine/Synth.lean ====
section
/-! DEFINITION. Sys2Proof/Machine/Synth.lean: the synthesizer stage of a TICK (41_synthesizer.md). -/

namespace Sys2Proof.Machine

/-- SampleStep (R151). -/
def sampleStep (s : State) : State :=
  if prescalerFires s then
    if samplePlaying s then
      { s.setOutBit 3 (sampleBit s.cfg s.scur.toNat) with sdiv := s.cfg.sampleDiv, scur := s.scur + 1 }
    else { s.setOutBit 3 false with sdiv := s.cfg.sampleDiv }
  else { s with sdiv := s.sdiv - 1 }

/-- The phase half of PulseStep on the registers of one oscillator (R153). -/
def advancePhase (oct : Word) (o : Osc) : Osc := { o with phase := phaseAfter o.phase oct o.period }

/-- PulseStep(c): the phase, then the comparator on the phase just written (R153, R154). -/
def pulseStep (c : Pulse) (s : State) : State :=
  let o := advancePhase (s.bank (chanOf c)).oct (s.osc c)
  (s.setOsc c o).setOutBit (chanOf c) (decide (dutyHigh o))

/-- The synthesizer stage: the sample step, then the three pulse steps (R150, R134). -/
def synthStage (s : State) : State := pulseStep 2 (pulseStep 1 (pulseStep 0 (sampleStep s)))

end Sys2Proof.Machine
end

