-- ==== Sys2Proof/Machine/Sequencer.lean ====
section
/-! DEFINITION. Sys2Proof/Machine/Sequencer.lean: TICK up to its sequencer pass, the tempo countdown, the hold, the fetch
with its checks (40_control_commands.md R134, 42_sequencer_dispatch.md), and what the machine does next. -/

namespace Sys2Proof.Machine

/-- TempoStep (R170): at zero the countdown reloads and a pass begins, with channel 0; else it counts down and the TICK
ends. -/
def tempoStep (comb : Bool) (s : State) : State :=
  if tempoElapsed s then
    { s with tempoCnt := s.tempoReload, inPass := true, chan := 0, nAdmin := 0, comb := comb }
  else { s with tempoCnt := s.tempoCnt - 1, out := comb }

/-- TICK (R134), up to the sequencer pass if this tick runs one. -/
def startTick (s : State) : State :=
  if live s then
    let t := synthStage s
    tempoStep (combined t) t
  else s

/-- A strobe (R136): the command of a simultaneous pair goes first, and its TICK is then the next strobe. -/
def takeStrobe (s : State) : State :=
  match s.schedule with
  | [] => startTick s
  | .tick :: rest => startTick { s with schedule := rest }
  | .command k :: rest => perform k { s with schedule := rest }
  | .both k :: rest => perform k { s with schedule := .tick :: rest }
  | .reset :: rest => doReset { s with schedule := rest }

/-- The hold arm of ChannelStep (R173). -/
def hold (s : State) : State := endChannel (s.setHere { s.here with len := s.here.len - 1 })

/-- What the fetch loop finds at the cursor. -/
inductive Fetched where
  /-- A command to execute. -/
  | command (i : Instr)
  /-- A fault, with its offending offset. -/
  | raise (cause : Cause) (x : Nat)
  deriving DecidableEq, Repr

/-- One iteration of FetchLoop up to the command (R174), in the order of R255: the command byte, the fetch limit (never
for a sounding event), the operand byte of a two-byte command (R78). -/
def fetch (s : State) : Fetched :=
  match memRead1 s s.at with
  | .error x => .raise .fetchRange x
  | .ok b =>
    if isSounding b then .command (decodeCommand b 0#8)
    else if s.nAdmin = fetchLimit s.cfg then .raise .fetchLimit s.at
    else if takesOperand b then
      match memRead1 s (s.at + 1) with
      | .error x => .raise .fetchRange x
      | .ok op => .command (decodeCommand b op)
    else .command (decodeCommand b 0#8)

/-- What a step does: goes to a state without running a command, or runs a command. -/
inductive Action where
  | advance (t : State)
  | run (i : Instr)
  deriving DecidableEq, Repr

/-- What the machine does next. Between the core's steps it takes a strobe; in a pass it steps the channel it has come to:
a channel that has just been come to and holds is held (R173); else its fetch loop goes on (R174). -/
def nextAction (s : State) : Action :=
  if s.inPass = true then
    if s.nAdmin = 0 ∧ holding s.here then .advance (hold s)
    else
      match fetch s with
      | .command i => .run i
      | .raise cause x => .advance (raiseFault cause x s)
  else .advance (takeStrobe s)

/-- The state in which the next step fetches the two bytes `b`, `op` as the next command of the channel it has come to: a
pass is in progress on a bound, unfaulted core, the channel does not hold, no administrative command has been counted,
and the two bytes lie inside the program. A cursor that leaves no room for two bytes is put to 0. -/
def placeCommand (s : State) (b op : Byte) : State :=
  let c : Chan := if s.inPass = true then s.chan else 0
  let a := if (s.bank c).cur.toNat < 65534 then (s.bank c).cur.toNat else 0
  let t := s.setBank c { s.bank c with cur := BitVec.ofNat 16 a, len := 0 }
  { t with
    mem := (t.mem.place a b).place (a + 1) op
    progLen := BitVec.ofNat 16 (max t.progLen.toNat (a + 2))
    bound := true
    fault := false
    inPass := true
    chan := c
    nAdmin := 0 }

end Sys2Proof.Machine
end

