-- ==== Sys2Proof/Machine/Step.lean ====
section
/-! DEFINITION. Sys2Proof/Machine/Step.lean: the step, one command or one piece of a TICK at a time (log entry 6). -/

namespace Sys2Proof.Machine

/-- One step: what `nextAction` says. -/
def step (s : State) : Host.Outcome State Fault Refusal :=
  match nextAction s with
  | .advance t => .next t
  | .run i => exec i s

/-- `s` with an instruction word of the opcode table stored where `step` fetches its next command, so that the very next
step runs it (log entry 7). -/
def State.withFetchWord (s : State) (nbits w : Nat) : State :=
  placeCommand s (tableWordBytes nbits w).1 (tableWordBytes nbits w).2

end Sys2Proof.Machine
end

