-- ==== Sys2Proof/Machine/Run.lean ====
section
/-! DEFINITION. Sys2Proof/Machine/Run.lean: the core's own steps (40_control_commands.md R136) and what is observed of a
run (00_scope.md R9), made of `step`. A core step (a whole TICK, or a host command) is one or more of `step`; no strobe is
looked at inside one. -/

namespace Sys2Proof.Machine

/-- The next state; `step` always answers one. -/
def after (s : State) : State :=
  match step s with
  | .next t => t
  | .fault _ => s
  | .refused _ => s

/-- At most `k` steps, stopping as soon as no TICK is in progress. -/
def finishTick : Nat → State → State
  | 0, s => s
  | k + 1, s => if s.inPass = true then finishTick k (after s) else s

/-- The most commands, holds and fetch faults of one pass: `4 * (FETCH_LIMIT + 1)` (R175). -/
def passBound (g : Config) : Nat := 4 * (fetchLimit g + 1)

/-- One step of the core (R136): the next strobe, and the sequencer pass of a TICK to its end. -/
def coreStep (s : State) : State := finishTick (passBound s.cfg) (takeStrobe s)

/-- `n` steps of the core. -/
def coreSteps : Nat → State → State
  | 0, s => s
  | n + 1, s => coreSteps n (coreStep s)

/-- The level of O after each of `n` steps of the core (R9); from a state with no strobe planned these are `n` TICKs. -/
def outputs : Nat → State → List Bool
  | 0, _ => []
  | n + 1, s => wireO (coreStep s) :: outputs n (coreStep s)

/-- How many of the next `n` steps of the core, all of them TICKs, run a sequencer pass. -/
def passesIn : Nat → State → Nat
  | 0, _ => 0
  | n + 1, s => (if live s ∧ tempoElapsed s then 1 else 0) + passesIn n (coreStep s)

end Sys2Proof.Machine
end

