-- ==== Sys2Proof/Safety.lean ====
section
/-! DEFINITION. Sys2Proof/Safety.lean: the words claims are made in: the invariants of 10_state.md R46 and of the rules of
single registers, and what two states agree on. -/

namespace Sys2Proof.Machine

/-- `RETV[c] = 0` implies `RET[c] = 0` (R24, R46). -/
def Bank.slotClean (b : Bank) : Prop := b.retv = false → b.ret = 0

/-- `DUTY[c] <= PERIOD[c]` (R29, R46). -/
def Osc.dutyBelowPeriod (o : Osc) : Prop := o.duty.toNat ≤ o.period.toNat

/-- `OCT[c]` is a power of two, the default octave, or 0 while nothing is bound (R25). -/
def Bank.octLegal (g : Config) (b : Bank) : Prop :=
  b.oct = 0 ∨ b.oct = g.octReset ∨ ∃ n : Nibble, b.oct = octaveOf n

/-- `TEMPO_RELOAD` is 0, the default tempo, or a multiple of 16 up to 4080 (R34, R194). -/
def tempoLegal (s : State) : Prop :=
  s.tempoReload = 0 ∨ s.tempoReload = s.cfg.tempoReset ∨ ∃ op : Byte, s.tempoReload = tempoOf op

/-- Every register but the fault record is 0 (R46, for `BOUND = 0`). -/
def registersZero (s : State) : Prop :=
  s.banks = Vector.replicate 4 Bank.zero ∧ s.oscs = Vector.replicate 3 Osc.zero ∧ s.chout = Vector.replicate 4 false ∧
  s.sdiv = 0 ∧ s.scur = 0 ∧ s.send = 0 ∧ s.tempoCnt = 0 ∧ s.tempoReload = 0 ∧ s.bound = false ∧ s.progLen = 0 ∧
  s.macroCount = 0 ∧ s.out = false

/-- The fault record is 0. -/
def recordClear (s : State) : Prop := s.fault = false ∧ s.fcode = 0 ∧ s.fchan = 0 ∧ s.faddr = 0

/-- The fault record holds a cause of R251. -/
def recordWritten (s : State) : Prop := s.fault = true ∧ ∃ cause : Cause, s.fcode = cause.code

/-- No TICK is in progress, and its locals are gone. -/
def betweenSteps (s : State) : Prop := s.inPass = false ∧ s.chan = 0 ∧ s.nAdmin = 0 ∧ s.comb = false

/-- A sequencer pass is in progress: the core is bound and unfaulted (R134), the channel has executed at most `FETCH_LIMIT`
administrative commands (R175) and, once it has executed one, does not hold (R173), and the combined output is the OR of
the channel outputs (R155). -/
def inThePass (s : State) : Prop :=
  s.inPass = true ∧ live s ∧ s.nAdmin ≤ fetchLimit s.cfg ∧ (s.nAdmin ≠ 0 → s.here.len = 0#8) ∧ s.comb = combined s

/-- The invariants of every reachable state: R46, with those of R25, R34 and R252 and of the locals of a TICK.
(`LSP[c] <= 5` and `VOL[c] <= 7` hold by the types of the registers.) -/
structure StateInv (s : State) : Prop where
  /-- Program memory is in canonical form. -/
  memory : s.mem.wf = true
  /-- R24. -/
  slots : ∀ c, (s.bank c).slotClean
  /-- R25. -/
  octaves : ∀ c, (s.bank c).octLegal s.cfg
  /-- R29. -/
  duties : ∀ c, (s.osc c).dutyBelowPeriod
  /-- `SCUR <= SEND` (R46). -/
  sampleWindow : s.scur.toNat ≤ s.send.toNat
  /-- `SEND <= SAMPLE_START[5] <= 1016` (R80). -/
  sampleEnd : s.send.toNat ≤ 1016
  /-- R34. -/
  tempo : tempoLegal s
  /-- `BOUND = 0` implies that every register is 0 except possibly the fault record. -/
  unbound : s.bound = false → registersZero s
  /-- `BOUND = 1` implies `8 <= PROG_LEN`. -/
  header : s.bound = true → 8 ≤ s.progLen.toNat
  /-- `FAULT = 1` implies `OUT = 0`. -/
  faultSilent : s.fault = true → s.out = false
  /-- The fault record is clear, or written with a cause (R252). -/
  record : recordClear s ∨ recordWritten s
  /-- Either no TICK is in progress or a pass is. -/
  progress : betweenSteps s ∨ inThePass s

/-- The tick source's strobe is the next thing the core takes: no TICK is in progress and the strobes to come begin with a
TICK, or there is none (log entry 5). -/
def tickNext (s : State) : Prop := s.inPass = false ∧ (s.schedule = [] ∨ ∃ rest, s.schedule = .tick :: rest)

/-- The channel the pass has come to fetches: it has not just been come to while holding (R173). -/
def fetches (s : State) : Prop := s.inPass = true ∧ (s.nAdmin ≠ 0 ∨ s.here.len = 0#8)

/-- `t` has the environment of `s`: the configuration, program memory (read at every offset) and the strobes to come. -/
def sameEnvironment (s t : State) : Prop :=
  t.cfg = s.cfg ∧ (∀ a, t.mem.read a = s.mem.read a) ∧ t.schedule = s.schedule

/-- `t` has the binding of `s`: `BOUND`, `PROG_LEN`, `MACRO_COUNT`. -/
def sameBinding (s t : State) : Prop :=
  t.bound = s.bound ∧ t.progLen = s.progLen ∧ t.macroCount = s.macroCount

/-- `t` has the fault record of `s`. -/
def sameRecord (s t : State) : Prop :=
  t.fault = s.fault ∧ t.fcode = s.fcode ∧ t.fchan = s.fchan ∧ t.faddr = s.faddr

/-- `t` has the synthesizer registers that no command writes: `CHOUT`, `SDIV`, `PHASE`. -/
def sameSynth (s t : State) : Prop :=
  t.chout = s.chout ∧ t.sdiv = s.sdiv ∧ ∀ c, (t.osc c).phase = (s.osc c).phase

/-- `t` has the sample window of `s`. -/
def sameWindow (s t : State) : Prop := t.scur = s.scur ∧ t.send = s.send

/-- `t` has the banks of `s` for every channel but `c`. -/
def otherBanksSame (c : Chan) (s t : State) : Prop := ∀ d, d ≠ c → t.bank d = s.bank d

/-- What no command changes (R20, R43, R85, and section 2 of 10_state.md): the environment, the binding, the synthesizer's
own registers, the countdown, and the banks of the other channels. -/
def commandFrame (s t : State) : Prop :=
  sameEnvironment s t ∧ sameBinding s t ∧ sameSynth s t ∧ t.tempoCnt = s.tempoCnt ∧ otherBanksSame s.chan s t

/-- `t` goes on with the fetch loop of the channel of `s`, one command further (R174): what an administrative command does
to the locals of the TICK; the output and the fault record are as before. -/
def loopGoesOn (s t : State) : Prop :=
  t.inPass = s.inPass ∧ t.chan = s.chan ∧ t.nAdmin = s.nAdmin + 1 ∧ t.comb = s.comb ∧ t.out = s.out ∧ sameRecord s t

/-- The channel of `s` is done with in `t` (R171, R234): the next channel is about to be stepped, or, after channel 3, the
TICK has ended with `OUT <- comb`. -/
def channelDone (s t : State) : Prop :=
  sameRecord s t ∧
  if s.chan.val < 3 then
    t.inPass = s.inPass ∧ t.chan.val = s.chan.val + 1 ∧ t.nAdmin = 0 ∧ t.comb = s.comb ∧ t.out = s.out
  else betweenSteps t ∧ t.out = s.comb

/-- `t` is `s` with the fault entered (R253): the record holds `cause`, the channel being stepped and the offset `x`; O is
low; the rest of the step is abandoned; every other register, the environment among them, is as before. -/
def faultEntered (cause : Cause) (x : Nat) (s t : State) : Prop :=
  t.fault = true ∧ t.fcode = cause.code ∧ t.fchan.toNat = s.chan.val ∧ t.faddr = BitVec.ofNat 16 x ∧ t.out = false ∧
  betweenSteps t ∧ commandFrame s t ∧ (∀ c, t.bank c = s.bank c) ∧ (∀ c, t.osc c = s.osc c) ∧ sameWindow s t ∧
  t.tempoReload = s.tempoReload

/-- `t` has the loop stack of `s`, on the same channel: the same number of entries, and the same live ones. The dead entries
above them, which no rule reads (R23), may differ: a loop nested in the body leaves its bits there. -/
def sameLoopStack (s t : State) : Prop :=
  t.chan = s.chan ∧ t.here.lsp = s.here.lsp ∧
  ∀ k : Fin 5, k.val < s.here.lsp.val → t.here.lret[k] = s.here.lret[k] ∧ t.here.lcnt[k] = s.here.lcnt[k]

/-- In the core step that `u` takes next the pass comes to channel `c`, with the bank it has in `u`, and the channel fetches
its next command (R173, R174); or a lower-numbered channel has faulted first, and `c` is not stepped (R254). -/
def nextPassFetches (c : Chan) (u : State) : Prop :=
  ∃ k v, k ≤ passBound u.cfg ∧ v = finishTick k (takeStrobe u) ∧
    ((v.chan = c ∧ v.nAdmin = 0 ∧ fetches v ∧ v.bank c = u.bank c) ∨ (v.fault = true ∧ v.fchan.toNat < c.val))

end Sys2Proof.Machine
end

