-- ==== Sys2Proof/Certificates/Slice0/Obligations.lean ====
section
/-! DEFINITION. Sys2Proof/Certificates/Slice0/Obligations.lean: the statements for the provers. A free value (the
configuration of the device, a bit outside the sample bank) is a variable or an opaque constant in every one of them. -/

open Sys2Proof Sys2Proof.Machine

/-! ### Encoding (30_encoding.md) -/

/-- Decoding an encoded well-formed command gives it back, with the bytes after it. (For the illegal encodings, that there is
one byte to give back is the model's choice, log entry 11.) -/
def Obligations.DecodeInvertsEncode : Prop :=
  ∀ (i : Instr) (rest : List Byte), i.wellFormed = true → decode (encode i ++ rest) = .ok (i, rest)

/-- Whatever decodes is well-formed, and its encoding is the bytes it was read from, as many as its length. (That an illegal
first byte is decoded as one byte is the model's choice, log entry 11.) -/
def Obligations.EncodeInvertsDecode : Prop :=
  ∀ (bs : List Byte) (i : Instr) (rest : List Byte), decode bs = .ok (i, rest) →
    i.wellFormed = true ∧ (encode i).length = i.length ∧ encode i ++ rest = bs

/-- R103, arm by arm, on the nibbles of the first byte. -/
def Obligations.DecodeProcedureArms : Prop :=
  ∀ (hi lo : Nibble) (op : Byte),
    (hi = 0#4 → decodeCommand (hi ++ lo) op = .rest lo) ∧
    (∀ p : NoteIndex, 1 ≤ p.val → hi.toNat = p.val → decodeCommand (hi ++ lo) op = .note p lo) ∧
    (hi = 13#4 → decodeCommand (hi ++ lo) op = .oct lo) ∧
    (∀ v : BitVec 3, hi = 14#4 → lo.toNat = v.toNat → decodeCommand (hi ++ lo) op = .vol v) ∧
    (∀ x : BitVec 3, hi = 14#4 → lo.toNat = 8 + x.toNat → decodeCommand (hi ++ lo) op = .illegalVol x) ∧
    (hi = 15#4 →
      decodeCommand (hi ++ lo) op =
        if lo = 0#4 then .loops op else if lo = 1#4 then .loope else if lo = 2#4 then .call op
        else if lo = 3#4 then .tempo op else if lo = 4#4 then .rsv4 op else if lo = 5#4 then .rsv5 op
        else if lo = 6#4 then .tie else if lo = 15#4 then .ret else .illegalExt lo)

/-- Every first byte belongs to exactly one row of the opcode table, the row of its command's mnemonic. -/
def Obligations.OneOpcodeRowPerFirstByte : Prop :=
  ∀ b op : Byte, ∃ r ∈ opcodeTable,
    r.matches b = true ∧ r.mnemonic = (decodeCommand b op).mnemonic ∧
    ∀ r' ∈ opcodeTable, r'.matches b = true → r' = r

/-- The length of a command is a function of its first byte (R101): 2 for `0xF0`, `0xF2`, `0xF3`, `0xF4`, `0xF5`, and 1 for
every other legal first byte. That it is 1 for the illegal first bytes `0xE8`..`0xEF` and `0xF7`..`0xFE` too, whose length
R101 leaves undefined (fault), is the model's choice, log entry 11. -/
def Obligations.LengthFromFirstByte : Prop :=
  ∀ b op : Byte, (decodeCommand b op).length =
    if b = 0xF0#8 ∨ b = 0xF2#8 ∨ b = 0xF3#8 ∨ b = 0xF4#8 ∨ b = 0xF5#8 then 2 else 1

/-- Words written out from the encodings of R104 and R105 (30_encoding.md section 7) decode to their commands. -/
def Obligations.WrittenOutWordsDecode : Prop :=
  decode [0b00001111#8] = .ok (.rest 15#4, []) ∧
  decode [0b00010000#8] = .ok (.note 1 0#4, []) ∧
  decode [0b11000111#8] = .ok (.note 12 7#4, []) ∧
  decode [0b11010011#8] = .ok (.oct 3#4, []) ∧
  decode [0b11100000#8] = .ok (.vol 0#3, []) ∧
  decode [0b11101000#8] = .ok (.illegalVol 0#3, []) ∧
  decode [0b11110000#8, 0b00000011#8] = .ok (.loops 3#8, []) ∧
  decode [0b11110010#8, 0b00000000#8] = .ok (.call 0#8, []) ∧
  decode [0b11110011#8, 0b01000000#8] = .ok (.tempo 64#8, []) ∧
  decode [0b11111111#8, 0b00010000#8] = .ok (.ret, [0b00010000#8])

/-! ### Configuration and program memory (00_scope.md, 20_memory.md) -/

/-- Every configuration of the model meets R6, and every set of tables that meets R6 is the tables of one. -/
def Obligations.ConfigurationsAreTheWellFormedOnes : Prop :=
  (∀ g : Config,
    noteRom g 1 = 1024#16 ∧ (∀ lo : Nibble, lo.toNat < 8 → (durRom g lo).toNat = 127 / 2 ^ lo.toNat) ∧
    (∀ k : Fin 5, (sampleStart g k.castSucc).toNat ≤ (sampleStart g k.succ).toNat) ∧
    (sampleStart g 5).toNat ≤ 1016 ∧ 1 ≤ fetchLimit g) ∧
  (∀ (note : NoteIndex → Word) (dur : Nibble → Byte) (bits : Fin 1016 → Bool) (start : Fin 6 → Word) (div : Byte)
      (tempo oct : Word) (limit : Nat),
    note 1 = 1024#16 → (∀ lo : Nibble, lo.toNat < 8 → (dur lo).toNat = 127 / 2 ^ lo.toNat) →
    (∀ k : Fin 5, (start k.castSucc).toNat ≤ (start k.succ).toNat) → (start 5).toNat ≤ 1016 → 1 ≤ limit →
    ∃ g : Config,
      (∀ i, noteRom g i = note i) ∧ (∀ lo, durRom g lo = dur lo) ∧ (∀ i : Fin 1016, sampleBit g i.val = bits i) ∧
      (∀ k, sampleStart g k = start k) ∧ g.sampleDiv = div ∧ g.tempoReset = tempo ∧ g.octReset = oct ∧
      fetchLimit g = limit)

/-- `MemRead` (R72, R73): range-checked byte reads, and big-endian slots whose two reads are made in order. -/
def Obligations.MemReadIsCheckedAndBigEndian : Prop :=
  ∀ (s : State) (a : Nat),
    (a < s.progLen.toNat → memRead1 s a = .ok (s.mem.read a)) ∧
    (s.progLen.toNat ≤ a → memRead1 s a = .error a ∧ memRead2 s a = .error a) ∧
    (s.progLen.toNat = a + 1 → memRead2 s a = .error (a + 1)) ∧
    (a + 1 < s.progLen.toNat →
      ∃ w, memRead2 s a = .ok w ∧ w.toNat = 256 * (s.mem.read a).toNat + (s.mem.read (a + 1)).toNat)

/-- The core writes no memory (R85) and no configuration: a step changes no byte of program memory unless it is the host's
PLAY, with the program it has placed (the model's choice, log entry 4). -/
def Obligations.CoreNeverWritesMemory : Prop :=
  ∀ s t : State, step s = .next t →
    t.cfg = s.cfg ∧
    ((∀ a, t.mem.read a = s.mem.read a) ∨
      s.inPass = false ∧ ∃ image len macros rest,
        (s.schedule = .command (.play image len macros) :: rest ∨ s.schedule = .both (.play image len macros) :: rest) ∧
        t.mem = Memory.load s.mem 0 image)

/-- The program a PLAY carries is what program memory holds after it (the model's choice, log entry 4). -/
def Obligations.PlayPlacesProgram : Prop :=
  ∀ (image : List Byte) (len : Nat) (macros : BitVec 9) (s : State) (a : Nat), s.mem.wf = true → a < 65536 →
    (doPlay image len macros s).mem.read a = (image[a]?).getD (s.mem.read a)

/-! ### Control commands, reset and strobes (40_control_commands.md, 70_reset_and_hazards.md) -/

/-- After reset every register of R21 to R38 is 0 and no TICK is in progress. -/
def Obligations.ResetZeroesEveryRegister : Prop :=
  registersZero State.reset ∧ recordClear State.reset ∧ betweenSteps State.reset

/-- INIT, STOP and hardware reset put every register to 0 and leave the environment alone. -/
def Obligations.InitStopAndResetZeroEverything : Prop :=
  ∀ (s : State) (rest : List Strobe), s.inPass = false →
    (s.schedule = .command .init :: rest ∨ s.schedule = .command .stop :: rest ∨ s.schedule = .reset :: rest) →
    ∃ t, step s = .next t ∧ registersZero t ∧ recordClear t ∧ betweenSteps t ∧
      t.cfg = s.cfg ∧ t.mem = s.mem ∧ t.schedule = rest

/-- PLAY (R132), with a length it accepts and with one it refuses. (That the host's program is an operand of PLAY is the
model's choice, log entry 4.) -/
def Obligations.PlayBindsOrRefuses : Prop :=
  ∀ (s : State) (image : List Byte) (len : Nat) (macros : BitVec 9) (rest : List Strobe), s.inPass = false →
    s.schedule = .command (.play image len macros) :: rest →
    ∃ t, step s = .next t ∧ betweenSteps t ∧ t.cfg = s.cfg ∧ t.mem = Memory.load s.mem 0 image ∧ t.schedule = rest ∧
      ((8 ≤ len ∧ len ≤ 65535) →
        recordClear t ∧ t.bound = true ∧ t.progLen.toNat = len ∧ t.macroCount = macros ∧ t.out = false ∧
        t.tempoCnt = 0 ∧ t.tempoReload = s.cfg.tempoReset ∧ t.sdiv = 0 ∧ t.scur = 0 ∧ t.send = 0 ∧
        (∀ c, t.outBit c = false) ∧
        (∀ c : Chan,
          (t.bank c).cur.toNat = 256 * (t.mem.read (2 * c.val)).toNat + (t.mem.read (2 * c.val + 1)).toNat ∧
          (t.bank c).len = 0 ∧ (t.bank c).lsp = 0 ∧ (∀ k : Fin 5, (t.bank c).lret[k] = 0 ∧ (t.bank c).lcnt[k] = 0) ∧
          (t.bank c).ret = 0 ∧ (t.bank c).retv = false ∧ (t.bank c).oct = s.cfg.octReset ∧ (t.bank c).vol = 1) ∧
        (∀ c : Pulse, (t.osc c).phase = 0 ∧ (t.osc c).period = noteRom s.cfg 0 ∧ (t.osc c).duty = 0)) ∧
      ((len < 8 ∨ 65535 < len) →
        registersZero t ∧ t.fault = true ∧ t.fcode = 1 ∧ t.fchan = 0 ∧ t.faddr = 0)

/-- A command that arrives together with a TICK is performed first and the TICK second. -/
def Obligations.CommandGoesBeforeSimultaneousTick : Prop :=
  ∀ (s : State) (k : Command) (rest : List Strobe), s.inPass = false → s.schedule = .both k :: rest →
    ∃ t, step s = .next t ∧ step { s with schedule := .command k :: .tick :: rest } = .next t ∧
      tickNext t

/-- No strobe is taken while a TICK is in progress. -/
def Obligations.StrobesWaitForTheTickToEnd : Prop :=
  ∀ s t : State, s.inPass = true → step s = .next t → t.schedule = s.schedule

/-- O keeps its level as long as a TICK is in progress, whatever the commands of its pass do. -/
def Obligations.OutputHoldsWhileATickIsInProgress : Prop :=
  ∀ s t : State, step s = .next t → t.inPass = true → wireO t = wireO s

/-- A TICK with no program bound, or after a fault, changes nothing (but takes the strobe). -/
def Obligations.IdleAndHaltedTicksDoNothing : Prop :=
  ∀ s : State, tickNext s → (s.bound = false ∨ s.fault = true) →
    step s = .next { s with schedule := s.schedule.tail }

/-! ### The synthesizer stage (41_synthesizer.md) -/

/-- SampleStep (R151), in every TICK of a bound, unfaulted core. -/
def Obligations.SampleStepOfATick : Prop :=
  ∀ s : State, tickNext s → live s →
    ∃ t, step s = .next t ∧ t.send = s.send ∧
      (s.sdiv = 0#8 → t.sdiv = s.cfg.sampleDiv) ∧
      (s.sdiv = 0#8 → s.scur.toNat < s.send.toNat →
        t.outBit 3 = sampleBit s.cfg s.scur.toNat ∧ t.scur.toNat = s.scur.toNat + 1) ∧
      (s.sdiv = 0#8 → s.send.toNat ≤ s.scur.toNat → t.outBit 3 = false ∧ t.scur = s.scur) ∧
      (s.sdiv ≠ 0#8 → t.sdiv.toNat + 1 = s.sdiv.toNat ∧ t.outBit 3 = s.outBit 3 ∧ t.scur = s.scur)

/-- PulseStep (R153, R154), in every TICK of a bound, unfaulted core: an exact sum, one subtraction, the low 16 bits; then
the inclusive comparison with the threshold. Period and threshold are not written. -/
def Obligations.PulseStepsOfATick : Prop :=
  ∀ s : State, tickNext s → live s →
    ∃ t, step s = .next t ∧ ∀ c : Pulse,
      (t.osc c).period = (s.osc c).period ∧ (t.osc c).duty = (s.osc c).duty ∧
      (t.osc c).phase.toNat =
        (let sum := (s.osc c).phase.toNat + (s.bank (chanOf c)).oct.toNat
         if (s.osc c).period.toNat ≤ sum then sum - (s.osc c).period.toNat else sum) % 65536 ∧
      (t.outBit (chanOf c) = true ↔ (t.osc c).phase.toNat ≤ (s.osc c).duty.toNat)

/-- While the phase is below the period and the multiplier does not exceed it, a TICK adds the multiplier modulo the period,
and the phase stays below the period (R153, corner case 1). -/
def Obligations.PhaseTurnsModuloThePeriod : Prop :=
  ∀ (s : State) (c : Pulse), tickNext s → live s → (s.osc c).phase.toNat < (s.osc c).period.toNat →
    (s.bank (chanOf c)).oct.toNat ≤ (s.osc c).period.toNat →
    ∃ t, step s = .next t ∧ (t.osc c).phase.toNat < (t.osc c).period.toNat ∧
      (t.osc c).phase.toNat =
        ((s.osc c).phase.toNat + (s.bank (chanOf c)).oct.toNat) % (s.osc c).period.toNat

/-- The sample channel's cadence depends on its prescaler alone: what a TICK does to it is the same whatever the tempo
registers hold, and no step of a sequencer pass touches the prescaler or an output bit. -/
def Obligations.SampleCadenceIgnoresTempo : Prop :=
  (∀ (s t t' : State) (cnt reload : Word), tickNext s → step s = .next t →
    step { s with tempoCnt := cnt, tempoReload := reload } = .next t' →
    t'.sdiv = t.sdiv ∧ t'.scur = t.scur ∧ t'.send = t.send ∧ t'.outBit 3 = t.outBit 3) ∧
  (∀ s t : State, s.inPass = true → step s = .next t → t.sdiv = s.sdiv ∧ ∀ c, t.outBit c = s.outBit c)

/-! ### The sequencer stage (42_sequencer_dispatch.md) -/

/-- TempoStep and the end of a TICK (R170, R134, R155): while the countdown is not 0 it counts down and the TICK ends with the
OR of the channel outputs on O; at 0 it reloads and a pass begins with channel 0, O still at its old level. Neither writes
a bank. -/
def Obligations.TempoCountdownOfATick : Prop :=
  ∀ s : State, tickNext s → live s →
    ∃ t, step s = .next t ∧ (∀ c, t.bank c = s.bank c) ∧ t.tempoReload = s.tempoReload ∧ sameBinding s t ∧
      sameRecord s t ∧ t.cfg = s.cfg ∧ t.mem = s.mem ∧ t.schedule = s.schedule.tail ∧
      (s.tempoCnt ≠ 0#16 → t.tempoCnt.toNat + 1 = s.tempoCnt.toNat ∧ t.inPass = false ∧
        t.out = (t.outBit 0 || t.outBit 1 || t.outBit 2 || t.outBit 3)) ∧
      (s.tempoCnt = 0#16 → t.tempoCnt = s.tempoReload ∧ t.inPass = true ∧ t.chan = 0 ∧ t.nAdmin = 0 ∧ t.out = s.out ∧
        t.comb = (t.outBit 0 || t.outBit 1 || t.outBit 2 || t.outBit 3))

/-- The hold arm of ChannelStep (R173), with its frame. -/
def Obligations.HoldCountsDown : Prop :=
  ∀ s : State, s.inPass = true → s.nAdmin = 0 → s.here.len ≠ 0#8 →
    ∃ t, step s = .next t ∧ commandFrame s t ∧ channelDone s t ∧
      t.bank s.chan = { s.here with len := s.here.len - 1 } ∧ (t.bank s.chan).len.toNat + 1 = s.here.len.toNat ∧
      (∀ c, t.osc c = s.osc c) ∧ sameWindow s t ∧ t.tempoReload = s.tempoReload

/-- A STEP RUNS THE DECODED COMMAND: when the channel the pass has come to fetches, the bytes at its cursor decode to `i`,
`i` lies inside the program, and `i` is sounding or the fetch limit is not reached, the step is `exec i`, with nothing
around it. -/
def Obligations.StepRunsTheDecodedCommand : Prop :=
  ∀ (s : State) (i : Instr) (rest : List Byte), fetches s →
    decode [s.mem.read s.at, s.mem.read (s.at + 1)] = .ok (i, rest) → s.at + i.length ≤ s.progLen.toNat →
    (i.sounding = true ∨ s.nAdmin ≠ fetchLimit s.cfg) →
    step s = exec i s

/-- The faults of the fetch, in the order of R255: the command byte outside the program; then the fetch limit, never for a
sounding event and before the operand or the command itself; then the operand byte outside the program. -/
def Obligations.FetchFaultsInOrder : Prop :=
  ∀ s : State, fetches s →
    (s.progLen.toNat ≤ s.at → ∃ t, step s = .next t ∧ faultEntered .fetchRange s.at s t) ∧
    (s.at < s.progLen.toNat → 12 < (s.mem.read s.at).toNat / 16 → s.nAdmin = fetchLimit s.cfg →
      ∃ t, step s = .next t ∧ faultEntered .fetchLimit s.at s t) ∧
    (s.at + 1 = s.progLen.toNat → takesOperand (s.mem.read s.at) = true → s.nAdmin ≠ fetchLimit s.cfg →
      ∃ t, step s = .next t ∧ faultEntered .fetchRange (s.at + 1) s t)

/-- The channels of a pass are stepped in ascending order: a step of a pass runs the next command of the channel's fetch
loop, or goes on to the next higher channel, or ends the TICK, after channel 3 with `OUT <- comb` or by a fault. -/
def Obligations.PassStepsChannelsInOrder : Prop :=
  ∀ s t : State, s.inPass = true → step s = .next t →
    (t.inPass = true ∧ t.chan = s.chan ∧ t.nAdmin = s.nAdmin + 1) ∨
    (t.inPass = true ∧ t.chan.val = s.chan.val + 1 ∧ t.nAdmin = 0) ∨
    (betweenSteps t ∧ s.chan = 3 ∧ t.out = s.comb) ∨
    (betweenSteps t ∧ t.fault = true ∧ t.out = false)

/-- An opcode-table word stored where the machine fetches is run by the very next step (log entry 7). -/
def Obligations.FetchWordRunsNext : Prop :=
  ∀ (s : State) (nbits w : Nat) (i : Instr), s.mem.wf = true → decodeTableWord nbits w = some i →
    step (s.withFetchWord nbits w) = exec i (s.withFetchWord nbits w)

/-- Every TICK ends: the pass of a TICK takes at most `4 * (FETCH_LIMIT + 1)` commands (R175). -/
def Obligations.EveryTickEnds : Prop :=
  ∀ s : State, s.inPass = false → (coreStep s).inPass = false

/-- The hold law (R178): a channel whose remaining length is `L` executes no command in the next `L` passes; after `p` of them
its length is `L - p`, nothing else of its bank has changed, and its oscillator has the period and threshold it had; and
after `L` of them the next pass fetches the channel's next command, at the cursor it has kept (unless a lower-numbered
channel faults first in that pass). -/
def Obligations.HoldLastsExactlyItsLength : Prop :=
  ∀ (n : Nat) (s : State) (c : Chan), s.inPass = false → s.schedule = [] → passesIn n s ≤ (s.bank c).len.toNat →
    (coreSteps n s).fault = false →
    ((coreSteps n s).bank c).len.toNat = (s.bank c).len.toNat - passesIn n s ∧
    (∃ l, (coreSteps n s).bank c = { s.bank c with len := l }) ∧
    (∀ h : c.val < 3,
      ((coreSteps n s).osc (pulseOf c h)).period = (s.osc (pulseOf c h)).period ∧
      ((coreSteps n s).osc (pulseOf c h)).duty = (s.osc (pulseOf c h)).duty) ∧
    (passesIn n s = (s.bank c).len.toNat → live (coreSteps n s) → tempoElapsed (coreSteps n s) →
      nextPassFetches c (coreSteps n s))

/-! ### Sounding events (45_sounding_events.md) -/

/-- REST (R230), on a pulse channel and on channel 3, with its frame. -/
def Obligations.RestSilencesAndWaits : Prop :=
  ∀ (d : Nibble) (s : State),
    ∃ t, exec (.rest d) s = .next t ∧ commandFrame s t ∧ channelDone s t ∧
      t.bank s.chan = { s.here with len := durRom s.cfg d, cur := s.here.cur + 1 } ∧
      (∀ c : Pulse, t.osc c = if chanOf c = s.chan then { s.osc c with duty := 0 } else s.osc c) ∧
      sameWindow s t ∧ t.tempoReload = s.tempoReload

/-- NOTE (R231, R232) on a pulse channel and on channel 3, and where it faults, with its frame. -/
def Obligations.NoteLoadsPeriodOrWaveform : Prop :=
  ∀ (p : NoteIndex) (d : Nibble) (s : State), 1 ≤ p.val →
    (s.chan.val < 3 →
      ∃ t, exec (.note p d) s = .next t ∧ commandFrame s t ∧ channelDone s t ∧
        t.bank s.chan = { s.here with len := durRom s.cfg d, cur := s.here.cur + 1 } ∧
        (∀ c : Pulse, t.osc c =
          if chanOf c = s.chan then
            { s.osc c with period := noteRom s.cfg p, duty := noteRom s.cfg p >>> s.here.vol.toNat }
          else s.osc c) ∧
        sameWindow s t ∧ t.tempoReload = s.tempoReload) ∧
    (s.chan = 3 → ∀ h : p.val ≤ 5,
      ∃ t, exec (.note p d) s = .next t ∧ commandFrame s t ∧ channelDone s t ∧
        t.bank s.chan = { s.here with len := durRom s.cfg d, cur := s.here.cur + 1 } ∧
        (∀ c : Pulse, t.osc c = s.osc c) ∧
        t.scur = sampleStart s.cfg ⟨p.val - 1, by omega⟩ ∧ t.send = sampleStart s.cfg ⟨p.val, by omega⟩ ∧
        t.tempoReload = s.tempoReload) ∧
    (s.chan = 3 → 6 ≤ p.val → ∃ t, exec (.note p d) s = .next t ∧ faultEntered .sampleId s.at s t)

/-! ### Administrative events (44_admin_events.md) -/

/-- OCT (R220), with its frame. -/
def Obligations.OctSetsMultiplier : Prop :=
  ∀ (n : Nibble) (s : State),
    ∃ t, exec (.oct n) s = .next t ∧ commandFrame s t ∧ loopGoesOn s t ∧ (t.bank s.chan).oct.toNat = 2 ^ n.toNat ∧
      t.bank s.chan = { s.here with oct := (t.bank s.chan).oct, cur := s.here.cur + 1 } ∧
      (∀ c, t.osc c = s.osc c) ∧ sameWindow s t ∧ t.tempoReload = s.tempoReload

/-- VOL and the illegal volumes (R221), with the frame. -/
def Obligations.VolSetsVolumeOrFaults : Prop :=
  ∀ (v : BitVec 3) (s : State),
    (∃ t, exec (.vol v) s = .next t ∧ commandFrame s t ∧ loopGoesOn s t ∧
      t.bank s.chan = { s.here with vol := v, cur := s.here.cur + 1 } ∧
      (∀ c, t.osc c = s.osc c) ∧ sameWindow s t ∧ t.tempoReload = s.tempoReload) ∧
    (∃ t, exec (.illegalVol v) s = .next t ∧ faultEntered .volume s.at s t)

/-! ### Extended commands (43_extended_commands.md) -/

/-- LOOPS (R190) once its operand is read: the push, and the two faults in their order, with the frame. -/
def Obligations.LoopsPushesOrFaults : Prop :=
  ∀ (op : Byte) (s : State),
    (op ≠ 0#8 → s.here.lsp.val < 5 →
      ∃ t, exec (.loops op) s = .next t ∧ commandFrame s t ∧ loopGoesOn s t ∧
        (t.bank s.chan).lsp.val = s.here.lsp.val + 1 ∧
        (∀ k : Fin 5, (t.bank s.chan).lret[k] =
          if k.val = s.here.lsp.val then s.here.cur + 2 else s.here.lret[k]) ∧
        (∀ k : Fin 5, k.val = s.here.lsp.val → ((t.bank s.chan).lcnt[k]).toNat + 1 = op.toNat) ∧
        (∀ k : Fin 5, k.val ≠ s.here.lsp.val → (t.bank s.chan).lcnt[k] = s.here.lcnt[k]) ∧
        t.bank s.chan =
          { s.here with
            cur := s.here.cur + 2
            lsp := (t.bank s.chan).lsp
            lret := (t.bank s.chan).lret
            lcnt := (t.bank s.chan).lcnt } ∧
        (∀ c, t.osc c = s.osc c) ∧ sameWindow s t ∧ t.tempoReload = s.tempoReload) ∧
    (op = 0#8 → ∃ t, exec (.loops op) s = .next t ∧ faultEntered .loopCount s.at s t) ∧
    (op ≠ 0#8 → s.here.lsp.val = 5 → ∃ t, exec (.loops op) s = .next t ∧ faultEntered .loopOvf s.at s t)

/-- LOOPE (R191): the jump back, the pop and the fault, with the frame. -/
def Obligations.LoopeRepeatsPopsOrFaults : Prop :=
  ∀ s : State,
    (∀ k : Fin 5, s.here.lsp.val = k.val + 1 → s.here.lcnt[k] ≠ 0#8 →
      ∃ t, exec .loope s = .next t ∧ commandFrame s t ∧ loopGoesOn s t ∧
        (t.bank s.chan).cur = s.here.lret[k] ∧ ((t.bank s.chan).lcnt[k]).toNat + 1 = (s.here.lcnt[k]).toNat ∧
        (∀ j : Fin 5, j ≠ k → (t.bank s.chan).lcnt[j] = s.here.lcnt[j]) ∧
        t.bank s.chan = { s.here with cur := (t.bank s.chan).cur, lcnt := (t.bank s.chan).lcnt } ∧
        (∀ c, t.osc c = s.osc c) ∧ sameWindow s t ∧ t.tempoReload = s.tempoReload) ∧
    (∀ k : Fin 5, s.here.lsp.val = k.val + 1 → s.here.lcnt[k] = 0#8 →
      ∃ t, exec .loope s = .next t ∧ commandFrame s t ∧ loopGoesOn s t ∧
        t.bank s.chan = { s.here with cur := s.here.cur + 1, lsp := k.castSucc } ∧
        (∀ c, t.osc c = s.osc c) ∧ sameWindow s t ∧ t.tempoReload = s.tempoReload) ∧
    (s.here.lsp = 0 → ∃ t, exec .loope s = .next t ∧ faultEntered .loopUnf s.at s t)

/-- The loop count law (R192): after `LOOPS n` at `a`, with bodies that leave the live loop stack as they found it (a body may hold nested loops), the first
`n - 1` arrivals at LOOPE jump back to `a + 2` and the `n`-th pops the entry and falls through: the body runs `n` times.
`y k` is the state after the `k`-th LOOPE (`y 0` after the LOOPS), `x k` the state that arrives at the `k`-th. -/
def Obligations.LoopBodyRunsOperandTimes : Prop :=
  ∀ (op : Byte) (s : State) (x y : Nat → State), op ≠ 0#8 → s.here.lsp.val < 5 → exec (.loops op) s = .next (y 0) →
    (∀ k, k < op.toNat → sameLoopStack (y k) (x (k + 1)) ∧ exec .loope (x (k + 1)) = .next (y (k + 1))) →
    (∀ k, 1 ≤ k → k < op.toNat → (y k).here.cur = s.here.cur + 2) ∧
    (y op.toNat).here.cur = (x op.toNat).here.cur + 1 ∧ (y op.toNat).here.lsp = s.here.lsp

/-- CALL (R193) once its operand is read, with or without a saved return offset: the jump through the macro slot, and the
faults in their order, with the frame. -/
def Obligations.CallJumpsThroughSlotOrFaults : Prop :=
  ∀ (op : Byte) (s : State),
    (op.toNat < s.macroCount.toNat → 2 * (op.toNat + 4) + 1 < s.progLen.toNat →
      ∃ t, exec (.call op) s = .next t ∧ commandFrame s t ∧ loopGoesOn s t ∧
        (t.bank s.chan).cur.toNat =
          256 * (s.mem.read (2 * (op.toNat + 4))).toNat + (s.mem.read (2 * (op.toNat + 4) + 1)).toNat ∧
        t.bank s.chan =
          { s.here with cur := (t.bank s.chan).cur, ret := s.here.cur + 2, retv := true } ∧
        (∀ c, t.osc c = s.osc c) ∧ sameWindow s t ∧ t.tempoReload = s.tempoReload) ∧
    (s.macroCount.toNat ≤ op.toNat → ∃ t, exec (.call op) s = .next t ∧ faultEntered .macroId s.at s t) ∧
    (op.toNat < s.macroCount.toNat → s.progLen.toNat ≤ 2 * (op.toNat + 4) →
      ∃ t, exec (.call op) s = .next t ∧ faultEntered .fetchRange (2 * (op.toNat + 4)) s t) ∧
    (op.toNat < s.macroCount.toNat → s.progLen.toNat = 2 * (op.toNat + 4) + 1 →
      ∃ t, exec (.call op) s = .next t ∧ faultEntered .fetchRange (2 * (op.toNat + 4) + 1) s t)

/-- RET (R198): the return, and the restart of the track, with the frame. -/
def Obligations.RetReturnsOrRestarts : Prop :=
  ∀ s : State,
    (s.here.retv = true →
      ∃ t, exec .ret s = .next t ∧ commandFrame s t ∧ loopGoesOn s t ∧
        t.bank s.chan = { s.here with cur := s.here.ret, ret := 0, retv := false } ∧
        (∀ c, t.osc c = s.osc c) ∧ sameWindow s t ∧ t.tempoReload = s.tempoReload) ∧
    (s.here.retv = false → 8 ≤ s.progLen.toNat →
      ∃ t, exec .ret s = .next t ∧ commandFrame s t ∧ loopGoesOn s t ∧
        (t.bank s.chan).cur.toNat =
          256 * (s.mem.read (2 * s.chan.val)).toNat + (s.mem.read (2 * s.chan.val + 1)).toNat ∧
        t.bank s.chan = { s.here with cur := (t.bank s.chan).cur } ∧
        (∀ c, t.osc c = s.osc c) ∧ sameWindow s t ∧ t.tempoReload = s.tempoReload)

/-- A CALL, inside a macro or not, is answered by the next RET: execution resumes at the byte after the CALL's operand and the
slot is cleared, so that a return offset saved before the CALL is lost (R193, R198, Scenario C). -/
def Obligations.RetResumesAfterTheLatestCall : Prop :=
  ∀ (op : Byte) (s t u : State), exec (.call op) s = .next t → t.fault = false → u.chan = s.chan →
    u.here.ret = (t.bank s.chan).ret → u.here.retv = (t.bank s.chan).retv →
    ∃ v, exec .ret u = .next v ∧ (v.bank s.chan).cur = s.here.cur + 2 ∧ (v.bank s.chan).retv = false

/-- TEMPO (R194) once its operand is read, with its frame. -/
def Obligations.TempoSetsReload : Prop :=
  ∀ (op : Byte) (s : State),
    ∃ t, exec (.tempo op) s = .next t ∧ commandFrame s t ∧ loopGoesOn s t ∧ t.tempoReload.toNat = 16 * op.toNat ∧
      t.bank s.chan = { s.here with cur := s.here.cur + 2 } ∧ (∀ c, t.osc c = s.osc c) ∧ sameWindow s t

/-- RSV4 and RSV5 (R195, R196, once the operand is read) move the cursor by 2 and do nothing else; the operand is ignored. -/
def Obligations.ReservedCommandsSkipTwoBytes : Prop :=
  ∀ (i : Instr) (op : Byte) (s : State), (i = .rsv4 op ∨ i = .rsv5 op) →
    ∃ t, exec i s = .next t ∧ commandFrame s t ∧ loopGoesOn s t ∧
      t.bank s.chan = { s.here with cur := s.here.cur + 2 } ∧
      (∀ c, t.osc c = s.osc c) ∧ sameWindow s t ∧ t.tempoReload = s.tempoReload

/-- TIE (R197) moves the cursor by 1 and does nothing else. -/
def Obligations.TieSkipsOneByte : Prop :=
  ∀ s : State,
    ∃ t, exec .tie s = .next t ∧ commandFrame s t ∧ loopGoesOn s t ∧
      t.bank s.chan = { s.here with cur := s.here.cur + 1 } ∧
      (∀ c, t.osc c = s.osc c) ∧ sameWindow s t ∧ t.tempoReload = s.tempoReload

/-- An illegal extended byte (R199) faults and writes nothing else. -/
def Obligations.IllegalExtendedBytesFault : Prop :=
  ∀ (lo : Nibble) (s : State),
    ∃ t, exec (.illegalExt lo) s = .next t ∧ faultEntered .illegal s.at s t

/-! ### All commands: who can write what (10_state.md section 2, 60_exceptions.md) -/

/-- No command changes the environment, the binding, the phases, the channel outputs, the countdown, the prescaler or another
channel's bank; the tempo reload is written by TEMPO alone and the sample window by NOTE on channel 3 alone. -/
def Obligations.CommandsReachOnlyTheirChannel : Prop :=
  ∀ (i : Instr) (s t : State), exec i s = .next t →
    commandFrame s t ∧
    (t.tempoReload ≠ s.tempoReload → ∃ op, i = .tempo op) ∧
    (¬ sameWindow s t → s.chan = 3 ∧ ∃ p d, i = .note p d) ∧
    (∀ c : Pulse, t.osc c ≠ s.osc c → chanOf c = s.chan ∧ i.sounding = true)

/-- A step of a pass that raises a fault writes the record, lowers O, abandons the TICK and changes nothing else (R253, R254):
the offset recorded is the command's, except for `F_FETCH_RANGE`, and the cursor still holds the command's offset. -/
def Obligations.FaultsArePrecise : Prop :=
  ∀ s t : State, s.inPass = true → s.fault = false → step s = .next t → t.fault = true →
    ∃ cause x, faultEntered cause x s t ∧ cause ≠ .progLen ∧ (cause ≠ .fetchRange → x = s.at)

/-- Only INIT, STOP, PLAY and hardware reset clear `FAULT` (R256, R280). -/
def Obligations.OnlyTheHostClearsAFault : Prop :=
  ∀ s t : State, s.fault = true → step s = .next t → t.fault = false →
    s.inPass = false ∧ ∃ rest,
      (∃ k, s.schedule = .command k :: rest ∨ s.schedule = .both k :: rest) ∨ s.schedule = .reset :: rest

/-- A step always answers a next state: nothing in this hardware is left stuck. -/
def Obligations.EveryStepAnswersNext : Prop :=
  ∀ s : State, ∃ t, step s = .next t

/-! ### Invariants (10_state.md R46) -/

/-- The invariants hold after reset. -/
def Obligations.InvariantsHoldAtReset : Prop := StateInv State.reset

/-- Every step keeps the invariants, whatever the strobes. -/
def Obligations.EveryStepKeepsInvariants : Prop :=
  ∀ s t : State, StateInv s → step s = .next t → StateInv t

/-! ### What is observed (00_scope.md R9) -/

/-- Determinism (R9): after a PLAY of the same program on cores of the same configuration, whatever either played before, the
outputs of the PLAY and of any number of TICKs after it, and the fault record then, are the same. The model's choices: that
the host's program is an operand of PLAY (log entry 4); that a byte the host has not placed has a value of its own, which is
why the program is to be placed whole, `len <= image.length` (log entry 3); that a planned PLAY is followed by TICKs alone
(log entry 5). -/
def Obligations.OutputIsAFunctionOfTheProgram : Prop :=
  ∀ (n : Nat) (s s' : State) (image : List Byte) (len : Nat) (macros : BitVec 9),
    s.inPass = false → s'.inPass = false → s.cfg = s'.cfg → s.mem.wf = true → s'.mem.wf = true → len ≤ image.length →
    s.schedule = [.command (.play image len macros)] → s'.schedule = [.command (.play image len macros)] →
    outputs (n + 1) s = outputs (n + 1) s' ∧ status (coreSteps (n + 1) s) = status (coreSteps (n + 1) s')
end

