-- ==== Sys2Proof/Laws/Decode.lean ====
section
/-! SUPPORT. Sys2Proof/Laws/Decode.lean: what the decoder makes of a pair of bytes, and what the first byte alone decides. -/

namespace Sys2Proof

/-- A property of every 4-bit value is one of sixteen values. -/
theorem nibble_cases {P : Nibble → Prop} (h : ∀ k : Fin 16, P (BitVec.ofFin k)) (n : Nibble) : P n := h n.toFin

/-- A property of every byte is one of 256 values. -/
theorem byte_cases {P : Byte → Prop} (h : ∀ k : Fin 256, P (BitVec.ofFin k)) (b : Byte) : P b := h b.toFin

/-- Two bytes always hold a whole command; the second is its operand or is left over. -/
theorem decode_pair (b op : Byte) :
    decode [b, op] =
      .ok (decodeCommand b (if takesOperand b then op else 0#8), if takesOperand b then [] else [op]) := by
  cases h : takesOperand b <;> simp [decode, h]

/-- What an opcode-table word decodes to. -/
theorem decodeTableWord_eq (nbits w : Nat) :
    decodeTableWord nbits w =
      some (decodeCommand (tableWordBytes nbits w).1
        (if takesOperand (tableWordBytes nbits w).1 then (tableWordBytes nbits w).2 else 0#8)) := by
  unfold decodeTableWord
  rw [decode_pair]

/-- The class of a command is its first byte's (R106). -/
theorem decodeCommand_sounding (b op : Byte) : (decodeCommand b op).sounding = isSounding b := by
  revert b
  refine byte_cases fun k => ?_
  fin_cases k <;> rfl

/-- The mnemonic of a command is its first byte's. -/
theorem decodeCommand_mnemonic (b op : Byte) : (decodeCommand b op).mnemonic = (decodeCommand b 0#8).mnemonic := by
  revert b
  refine byte_cases fun k => ?_
  fin_cases k <;> rfl

/-- The length of a command is its first byte's (R101; an illegal byte's is log entry 11). -/
theorem decodeCommand_length (b op : Byte) : (decodeCommand b op).length = if takesOperand b then 2 else 1 := by
  revert b
  refine byte_cases fun k => ?_
  fin_cases k <;> rfl

/-- No sounding event takes an operand. -/
theorem takesOperand_of_sounding {b : Byte} (h : isSounding b = true) : takesOperand b = false := by
  revert h
  refine byte_cases (P := fun b => isSounding b = true → takesOperand b = false) (fun k => ?_) b
  fin_cases k <;> decide

/-- The nibble test of R174 as an inequality on the byte. -/
theorem isSounding_eq_false_iff (b : Byte) : isSounding b = false ↔ 12 < b.toNat / 16 := by
  revert b
  refine byte_cases fun k => ?_
  fin_cases k <;> decide

end Sys2Proof
end

