-- ==== Sys2Proof/Laws/Memory.lean ====
section
/-! SUPPORT. Sys2Proof/Laws/Memory.lean: program memory as a sorted list: a placed byte reads back, every other byte is as
before, and every memory operation keeps the canonical form. -/

namespace Sys2Proof.Machine

theorem Memory.wfFrom_mono {m : Memory} {lo lo' : Nat} (h : lo' ≤ lo) (hm : Memory.wfFrom lo m = true) :
    Memory.wfFrom lo' m = true := by
  cases m with
  | nil => rfl
  | cons p rest =>
    simp only [Memory.wfFrom, Bool.and_eq_true, decide_eq_true_eq] at hm ⊢
    exact ⟨⟨⟨by omega, hm.1.1.2⟩, hm.1.2⟩, hm.2⟩

/-- An offset below every listed one reads as blank. -/
theorem Memory.read_of_lt {m : Memory} {lo a : Nat} (hm : Memory.wfFrom lo m = true) (h : a < lo) :
    m.read a = blankByte := by
  induction m generalizing lo with
  | nil => rfl
  | cons p rest ih =>
    obtain ⟨k, v⟩ := p
    simp only [Memory.wfFrom, Bool.and_eq_true, decide_eq_true_eq] at hm
    have hk : k ≠ a := by omega
    simp only [Memory.read, hk, if_false]
    exact ih hm.2 (by omega)

theorem Memory.wfFrom_insert {m : Memory} {lo a : Nat} {v : Byte} (hm : Memory.wfFrom lo m = true) (hlo : lo ≤ a)
    (ha : a < 65536) : Memory.wfFrom lo (m.insert a v) = true := by
  induction m generalizing lo with
  | nil =>
    by_cases hv : v = blankByte
    · simp [Memory.insert, hv, Memory.wfFrom]
    · simp [Memory.insert, hv, Memory.wfFrom, hlo, ha]
  | cons p rest ih =>
    obtain ⟨k, w⟩ := p
    simp only [Memory.wfFrom, Bool.and_eq_true, decide_eq_true_eq] at hm
    obtain ⟨⟨⟨hlok, hk⟩, hw⟩, hrest⟩ := hm
    by_cases h1 : a < k
    · by_cases hv : v = blankByte
      · simp [Memory.insert, h1, hv, Memory.wfFrom, hlok, hk, hw, hrest]
      · have h2 : a + 1 ≤ k := h1
        simp [Memory.insert, h1, hv, Memory.wfFrom, hlo, ha, h2, hk, hw, hrest]
    · by_cases h2 : a = k
      · subst h2
        by_cases hv : v = blankByte
        · simpa [Memory.insert, hv] using Memory.wfFrom_mono (by omega) hrest
        · simp [Memory.insert, hv, Memory.wfFrom, hlo, ha, hrest]
      · have h3 : k + 1 ≤ a := by omega
        simp [Memory.insert, h1, h2, Memory.wfFrom, hlok, hk, hw, ih hrest h3]

theorem Memory.read_insert {m : Memory} {lo a : Nat} {v : Byte} (hm : Memory.wfFrom lo m = true) (x : Nat) :
    (m.insert a v).read x = if x = a then v else m.read x := by
  induction m generalizing lo with
  | nil =>
    by_cases hv : v = blankByte
    · by_cases hx : x = a <;> simp [Memory.insert, hv, Memory.read]
    · by_cases hx : x = a
      · simp [Memory.insert, hv, Memory.read, hx]
      · simp [Memory.insert, hv, Memory.read, hx, Ne.symm hx]
  | cons p rest ih =>
    obtain ⟨k, w⟩ := p
    have hall := hm
    simp only [Memory.wfFrom, Bool.and_eq_true, decide_eq_true_eq] at hm
    by_cases h1 : a < k
    · by_cases hv : v = blankByte
      · by_cases hx : x = a
        · subst hx
          have hread := Memory.read_of_lt (lo := k) (Memory.wfFrom_mono (m := (k, w) :: rest) (Nat.le_refl _)
            (by simp [Memory.wfFrom, hm])) h1
          simpa [Memory.insert, h1, hv] using hread
        · simp [Memory.insert, h1, hv, hx]
      · by_cases hx : x = a
        · simp [Memory.insert, h1, hv, Memory.read, hx]
        · simp [Memory.insert, h1, hv, Memory.read, hx, Ne.symm hx]
    · by_cases h2 : a = k
      · subst h2
        by_cases hv : v = blankByte
        · by_cases hx : x = a
          · subst hx; simpa [Memory.insert, hv] using Memory.read_of_lt hm.2 (Nat.lt_succ_self _)
          · simp [Memory.insert, hv, Memory.read, hx, Ne.symm hx]
        · by_cases hx : x = a
          · simp [Memory.insert, hv, Memory.read, hx]
          · simp [Memory.insert, hv, Memory.read, hx, Ne.symm hx]
      · by_cases hx : k = x
        · subst hx; simp [Memory.insert, h1, h2, Memory.read, Ne.symm h2]
        · simp [Memory.insert, h1, h2, Memory.read, hx, ih hm.2]

/-- Placing a byte keeps the canonical form. -/
theorem Memory.wf_place {m : Memory} (hm : m.wf = true) (a : Nat) (v : Byte) : (m.place a v).wf = true := by
  unfold Memory.place
  split
  · next h => exact Memory.wfFrom_insert hm (Nat.zero_le _) h
  · exact hm

/-- A placed byte reads back; every other offset reads as before. -/
theorem Memory.read_place {m : Memory} (hm : m.wf = true) {a : Nat} (ha : a < 65536) (v : Byte) (x : Nat) :
    (m.place a v).read x = if x = a then v else m.read x := by
  rw [Memory.place, if_pos ha]
  exact Memory.read_insert hm x

/-- Loading a byte sequence keeps the canonical form. -/
theorem Memory.wf_load {m : Memory} (hm : m.wf = true) (a : Nat) (bs : List Byte) : (m.load a bs).wf = true := by
  induction bs generalizing m a with
  | nil => exact hm
  | cons b bs ih => exact ih (Memory.wf_place hm a b) (a + 1)

/-- The memory after reset is in canonical form. -/
theorem Memory.wf_reset : State.reset.mem.wf = true := rfl

end Sys2Proof.Machine
end

