-- ==== Sys2Proof/Laws/State.lean ====
section
/-! SUPPORT. Sys2Proof/Laws/State.lean: the fields of a state after each update of a register bank, an oscillator or an
output bit, so that no later proof unfolds a record update. -/

namespace Sys2Proof.Machine

variable (s : State) (c : Chan) (p : Pulse)


/-! ### setBank -/

@[simp] theorem State.setBank_oscs (b : Bank) : (s.setBank c b).oscs = s.oscs := rfl
@[simp] theorem State.setBank_chout (b : Bank) : (s.setBank c b).chout = s.chout := rfl
@[simp] theorem State.setBank_sdiv (b : Bank) : (s.setBank c b).sdiv = s.sdiv := rfl
@[simp] theorem State.setBank_scur (b : Bank) : (s.setBank c b).scur = s.scur := rfl
@[simp] theorem State.setBank_send (b : Bank) : (s.setBank c b).send = s.send := rfl
@[simp] theorem State.setBank_tempoCnt (b : Bank) : (s.setBank c b).tempoCnt = s.tempoCnt := rfl
@[simp] theorem State.setBank_tempoReload (b : Bank) : (s.setBank c b).tempoReload = s.tempoReload := rfl
@[simp] theorem State.setBank_bound (b : Bank) : (s.setBank c b).bound = s.bound := rfl
@[simp] theorem State.setBank_progLen (b : Bank) : (s.setBank c b).progLen = s.progLen := rfl
@[simp] theorem State.setBank_macroCount (b : Bank) : (s.setBank c b).macroCount = s.macroCount := rfl
@[simp] theorem State.setBank_out (b : Bank) : (s.setBank c b).out = s.out := rfl
@[simp] theorem State.setBank_fault (b : Bank) : (s.setBank c b).fault = s.fault := rfl
@[simp] theorem State.setBank_fcode (b : Bank) : (s.setBank c b).fcode = s.fcode := rfl
@[simp] theorem State.setBank_fchan (b : Bank) : (s.setBank c b).fchan = s.fchan := rfl
@[simp] theorem State.setBank_faddr (b : Bank) : (s.setBank c b).faddr = s.faddr := rfl
@[simp] theorem State.setBank_cfg (b : Bank) : (s.setBank c b).cfg = s.cfg := rfl
@[simp] theorem State.setBank_mem (b : Bank) : (s.setBank c b).mem = s.mem := rfl
@[simp] theorem State.setBank_schedule (b : Bank) : (s.setBank c b).schedule = s.schedule := rfl
@[simp] theorem State.setBank_inPass (b : Bank) : (s.setBank c b).inPass = s.inPass := rfl
@[simp] theorem State.setBank_chan (b : Bank) : (s.setBank c b).chan = s.chan := rfl
@[simp] theorem State.setBank_nAdmin (b : Bank) : (s.setBank c b).nAdmin = s.nAdmin := rfl
@[simp] theorem State.setBank_comb (b : Bank) : (s.setBank c b).comb = s.comb := rfl

/-! ### setOsc -/

@[simp] theorem State.setOsc_banks (o : Osc) : (s.setOsc p o).banks = s.banks := rfl
@[simp] theorem State.setOsc_chout (o : Osc) : (s.setOsc p o).chout = s.chout := rfl
@[simp] theorem State.setOsc_sdiv (o : Osc) : (s.setOsc p o).sdiv = s.sdiv := rfl
@[simp] theorem State.setOsc_scur (o : Osc) : (s.setOsc p o).scur = s.scur := rfl
@[simp] theorem State.setOsc_send (o : Osc) : (s.setOsc p o).send = s.send := rfl
@[simp] theorem State.setOsc_tempoCnt (o : Osc) : (s.setOsc p o).tempoCnt = s.tempoCnt := rfl
@[simp] theorem State.setOsc_tempoReload (o : Osc) : (s.setOsc p o).tempoReload = s.tempoReload := rfl
@[simp] theorem State.setOsc_bound (o : Osc) : (s.setOsc p o).bound = s.bound := rfl
@[simp] theorem State.setOsc_progLen (o : Osc) : (s.setOsc p o).progLen = s.progLen := rfl
@[simp] theorem State.setOsc_macroCount (o : Osc) : (s.setOsc p o).macroCount = s.macroCount := rfl
@[simp] theorem State.setOsc_out (o : Osc) : (s.setOsc p o).out = s.out := rfl
@[simp] theorem State.setOsc_fault (o : Osc) : (s.setOsc p o).fault = s.fault := rfl
@[simp] theorem State.setOsc_fcode (o : Osc) : (s.setOsc p o).fcode = s.fcode := rfl
@[simp] theorem State.setOsc_fchan (o : Osc) : (s.setOsc p o).fchan = s.fchan := rfl
@[simp] theorem State.setOsc_faddr (o : Osc) : (s.setOsc p o).faddr = s.faddr := rfl
@[simp] theorem State.setOsc_cfg (o : Osc) : (s.setOsc p o).cfg = s.cfg := rfl
@[simp] theorem State.setOsc_mem (o : Osc) : (s.setOsc p o).mem = s.mem := rfl
@[simp] theorem State.setOsc_schedule (o : Osc) : (s.setOsc p o).schedule = s.schedule := rfl
@[simp] theorem State.setOsc_inPass (o : Osc) : (s.setOsc p o).inPass = s.inPass := rfl
@[simp] theorem State.setOsc_chan (o : Osc) : (s.setOsc p o).chan = s.chan := rfl
@[simp] theorem State.setOsc_nAdmin (o : Osc) : (s.setOsc p o).nAdmin = s.nAdmin := rfl
@[simp] theorem State.setOsc_comb (o : Osc) : (s.setOsc p o).comb = s.comb := rfl

/-! ### setOutBit -/

@[simp] theorem State.setOutBit_banks (b : Bool) : (s.setOutBit c b).banks = s.banks := rfl
@[simp] theorem State.setOutBit_oscs (b : Bool) : (s.setOutBit c b).oscs = s.oscs := rfl
@[simp] theorem State.setOutBit_sdiv (b : Bool) : (s.setOutBit c b).sdiv = s.sdiv := rfl
@[simp] theorem State.setOutBit_scur (b : Bool) : (s.setOutBit c b).scur = s.scur := rfl
@[simp] theorem State.setOutBit_send (b : Bool) : (s.setOutBit c b).send = s.send := rfl
@[simp] theorem State.setOutBit_tempoCnt (b : Bool) : (s.setOutBit c b).tempoCnt = s.tempoCnt := rfl
@[simp] theorem State.setOutBit_tempoReload (b : Bool) : (s.setOutBit c b).tempoReload = s.tempoReload := rfl
@[simp] theorem State.setOutBit_bound (b : Bool) : (s.setOutBit c b).bound = s.bound := rfl
@[simp] theorem State.setOutBit_progLen (b : Bool) : (s.setOutBit c b).progLen = s.progLen := rfl
@[simp] theorem State.setOutBit_macroCount (b : Bool) : (s.setOutBit c b).macroCount = s.macroCount := rfl
@[simp] theorem State.setOutBit_out (b : Bool) : (s.setOutBit c b).out = s.out := rfl
@[simp] theorem State.setOutBit_fault (b : Bool) : (s.setOutBit c b).fault = s.fault := rfl
@[simp] theorem State.setOutBit_fcode (b : Bool) : (s.setOutBit c b).fcode = s.fcode := rfl
@[simp] theorem State.setOutBit_fchan (b : Bool) : (s.setOutBit c b).fchan = s.fchan := rfl
@[simp] theorem State.setOutBit_faddr (b : Bool) : (s.setOutBit c b).faddr = s.faddr := rfl
@[simp] theorem State.setOutBit_cfg (b : Bool) : (s.setOutBit c b).cfg = s.cfg := rfl
@[simp] theorem State.setOutBit_mem (b : Bool) : (s.setOutBit c b).mem = s.mem := rfl
@[simp] theorem State.setOutBit_schedule (b : Bool) : (s.setOutBit c b).schedule = s.schedule := rfl
@[simp] theorem State.setOutBit_inPass (b : Bool) : (s.setOutBit c b).inPass = s.inPass := rfl
@[simp] theorem State.setOutBit_chan (b : Bool) : (s.setOutBit c b).chan = s.chan := rfl
@[simp] theorem State.setOutBit_nAdmin (b : Bool) : (s.setOutBit c b).nAdmin = s.nAdmin := rfl
@[simp] theorem State.setOutBit_comb (b : Bool) : (s.setOutBit c b).comb = s.comb := rfl

/-! ### setHere -/

@[simp] theorem State.setHere_oscs (b : Bank) : (s.setHere b).oscs = s.oscs := rfl
@[simp] theorem State.setHere_chout (b : Bank) : (s.setHere b).chout = s.chout := rfl
@[simp] theorem State.setHere_sdiv (b : Bank) : (s.setHere b).sdiv = s.sdiv := rfl
@[simp] theorem State.setHere_scur (b : Bank) : (s.setHere b).scur = s.scur := rfl
@[simp] theorem State.setHere_send (b : Bank) : (s.setHere b).send = s.send := rfl
@[simp] theorem State.setHere_tempoCnt (b : Bank) : (s.setHere b).tempoCnt = s.tempoCnt := rfl
@[simp] theorem State.setHere_tempoReload (b : Bank) : (s.setHere b).tempoReload = s.tempoReload := rfl
@[simp] theorem State.setHere_bound (b : Bank) : (s.setHere b).bound = s.bound := rfl
@[simp] theorem State.setHere_progLen (b : Bank) : (s.setHere b).progLen = s.progLen := rfl
@[simp] theorem State.setHere_macroCount (b : Bank) : (s.setHere b).macroCount = s.macroCount := rfl
@[simp] theorem State.setHere_out (b : Bank) : (s.setHere b).out = s.out := rfl
@[simp] theorem State.setHere_fault (b : Bank) : (s.setHere b).fault = s.fault := rfl
@[simp] theorem State.setHere_fcode (b : Bank) : (s.setHere b).fcode = s.fcode := rfl
@[simp] theorem State.setHere_fchan (b : Bank) : (s.setHere b).fchan = s.fchan := rfl
@[simp] theorem State.setHere_faddr (b : Bank) : (s.setHere b).faddr = s.faddr := rfl
@[simp] theorem State.setHere_cfg (b : Bank) : (s.setHere b).cfg = s.cfg := rfl
@[simp] theorem State.setHere_mem (b : Bank) : (s.setHere b).mem = s.mem := rfl
@[simp] theorem State.setHere_schedule (b : Bank) : (s.setHere b).schedule = s.schedule := rfl
@[simp] theorem State.setHere_inPass (b : Bank) : (s.setHere b).inPass = s.inPass := rfl
@[simp] theorem State.setHere_chan (b : Bank) : (s.setHere b).chan = s.chan := rfl
@[simp] theorem State.setHere_nAdmin (b : Bank) : (s.setHere b).nAdmin = s.nAdmin := rfl
@[simp] theorem State.setHere_comb (b : Bank) : (s.setHere b).comb = s.comb := rfl

/-! ### Reading back -/

theorem State.bank_setBank (b : Bank) (d : Chan) : (s.setBank c b).bank d = if d = c then b else s.bank d := by
  simp only [State.bank, State.setBank, Fin.getElem_fin, Vector.getElem_set, Fin.ext_iff]
  by_cases h : d.val = c.val
  · simp [h]
  · simp [h, Ne.symm h]

@[simp] theorem State.bank_setBank_self (b : Bank) : (s.setBank c b).bank c = b := by simp [State.bank_setBank]

theorem State.bank_setBank_ne (b : Bank) {d : Chan} (h : d ≠ c) : (s.setBank c b).bank d = s.bank d := by
  simp [State.bank_setBank, h]

@[simp] theorem State.here_setHere (b : Bank) : (s.setHere b).here = b := by
  show (s.setBank s.chan b).bank s.chan = b
  simp

theorem State.bank_setHere (b : Bank) (d : Chan) : (s.setHere b).bank d = if d = s.chan then b else s.bank d :=
  State.bank_setBank s s.chan b d

@[simp] theorem State.setHere_setHere (b b' : Bank) : (s.setHere b).setHere b' = s.setHere b' := by
  simp [State.setHere, State.setBank]

@[simp] theorem State.setHere_here : s.setHere s.here = s := by
  simp [State.setHere, State.setBank, State.here, State.bank]

theorem State.osc_setOsc (o : Osc) (q : Pulse) : (s.setOsc p o).osc q = if q = p then o else s.osc q := by
  simp only [State.osc, State.setOsc, Fin.getElem_fin, Vector.getElem_set, Fin.ext_iff]
  by_cases h : q.val = p.val
  · simp [h]
  · simp [h, Ne.symm h]

@[simp] theorem State.osc_setOsc_self (o : Osc) : (s.setOsc p o).osc p = o := by simp [State.osc_setOsc]

theorem State.outBit_setOutBit (b : Bool) (d : Chan) :
    (s.setOutBit c b).outBit d = if d = c then b else s.outBit d := by
  simp only [State.outBit, State.setOutBit, Fin.getElem_fin, Vector.getElem_set, Fin.ext_iff]
  by_cases h : d.val = c.val
  · simp [h]
  · simp [h, Ne.symm h]

@[simp] theorem State.outBit_setOutBit_self (b : Bool) : (s.setOutBit c b).outBit c = b := by
  simp [State.outBit_setOutBit]

/-! ### An update of one array leaves the reads of the others alone -/

@[simp] theorem State.osc_setBank (b : Bank) (q : Pulse) : (s.setBank c b).osc q = s.osc q := rfl
@[simp] theorem State.osc_setHere (b : Bank) (q : Pulse) : (s.setHere b).osc q = s.osc q := rfl
@[simp] theorem State.osc_setOutBit (b : Bool) (q : Pulse) : (s.setOutBit c b).osc q = s.osc q := rfl
@[simp] theorem State.bank_setOsc (o : Osc) (d : Chan) : (s.setOsc p o).bank d = s.bank d := rfl
@[simp] theorem State.bank_setOutBit (b : Bool) (d : Chan) : (s.setOutBit c b).bank d = s.bank d := rfl
@[simp] theorem State.outBit_setBank (b : Bank) (d : Chan) : (s.setBank c b).outBit d = s.outBit d := rfl
@[simp] theorem State.outBit_setHere (b : Bank) (d : Chan) : (s.setHere b).outBit d = s.outBit d := rfl
@[simp] theorem State.outBit_setOsc (o : Osc) (d : Chan) : (s.setOsc p o).outBit d = s.outBit d := rfl
@[simp] theorem State.here_setOsc (o : Osc) : (s.setOsc p o).here = s.here := rfl
@[simp] theorem State.here_setOutBit (b : Bool) : (s.setOutBit c b).here = s.here := rfl

end Sys2Proof.Machine
end

