-- ==== Sys2Proof/Laws/Ops.lean ====
section
/-! SUPPORT. Sys2Proof/Laws/Ops.lean: for each shared operation, one lemma that says everything it does; later proofs cite
these and do not unfold the operations. -/

namespace Sys2Proof.Machine

/-! ### Reads of program memory -/

theorem memRead1_ok {s : State} {a : Nat} {b : Byte} (h : memRead1 s a = .ok b) :
    a < s.progLen.toNat ∧ b = s.mem.read a := by
  unfold memRead1 at h
  split at h
  · next ha => exact ⟨ha, by simpa using h.symm⟩
  · cases h

theorem memRead1_error {s : State} {a x : Nat} (h : memRead1 s a = .error x) : s.progLen.toNat ≤ a ∧ x = a := by
  unfold memRead1 at h
  split at h
  · cases h
  · next ha => exact ⟨by omega, by simpa using h.symm⟩

theorem memRead1_of_lt {s : State} {a : Nat} (h : a < s.progLen.toNat) : memRead1 s a = .ok (s.mem.read a) := by
  simp [memRead1, h]

theorem memRead1_of_ge {s : State} {a : Nat} (h : s.progLen.toNat ≤ a) : memRead1 s a = .error a := by
  simp [memRead1, Nat.not_lt.mpr h]

theorem memRead2_of_lt {s : State} {a : Nat} (h : a + 1 < s.progLen.toNat) : memRead2 s a = .ok (s.mem.word a) := by
  simp [memRead2, Memory.word, memRead1_of_lt h, memRead1_of_lt (Nat.lt_of_succ_lt h)]

theorem memRead2_of_ge {s : State} {a : Nat} (h : s.progLen.toNat ≤ a) : memRead2 s a = .error a := by
  simp [memRead2, memRead1_of_ge h]

theorem memRead2_of_eq {s : State} {a : Nat} (h : s.progLen.toNat = a + 1) : memRead2 s a = .error (a + 1) := by
  simp [memRead2, memRead1_of_lt (show a < s.progLen.toNat by omega), memRead1_of_ge (Nat.le_of_eq h)]

theorem memRead2_ok {s : State} {a : Nat} {w : Word} (h : memRead2 s a = .ok w) :
    a + 1 < s.progLen.toNat ∧ w = s.mem.word a := by
  rcases Nat.lt_trichotomy (a + 1) s.progLen.toNat with h' | h' | h'
  · rw [memRead2_of_lt h'] at h; exact ⟨h', by simpa using h.symm⟩
  · rw [memRead2_of_eq h'.symm] at h; cases h
  · rw [memRead2_of_ge (Nat.le_of_lt_succ h')] at h; cases h

/-- A big-endian slot (R73). -/
theorem Memory.word_toNat (m : Memory) (a : Nat) :
    (m.word a).toNat = 256 * (m.read a).toNat + (m.read (a + 1)).toNat := by
  have h := (m.read (a + 1)).isLt
  simp only [Memory.word, BitVec.toNat_append]
  rw [Nat.shiftLeft_eq, Nat.mul_comm, ← Nat.two_pow_add_eq_or_of_lt (by simpa using h)]

/-! ### The ends of a command: what each leaves of the fields -/

@[simp] theorem leavePass_fields (s : State) :
    (leavePass s).banks = s.banks ∧ (leavePass s).oscs = s.oscs ∧ (leavePass s).chout = s.chout ∧
    (leavePass s).sdiv = s.sdiv ∧ (leavePass s).scur = s.scur ∧ (leavePass s).send = s.send ∧
    (leavePass s).tempoCnt = s.tempoCnt ∧ (leavePass s).tempoReload = s.tempoReload ∧ (leavePass s).bound = s.bound ∧
    (leavePass s).progLen = s.progLen ∧ (leavePass s).macroCount = s.macroCount ∧ (leavePass s).out = s.out ∧
    (leavePass s).fault = s.fault ∧ (leavePass s).fcode = s.fcode ∧ (leavePass s).fchan = s.fchan ∧
    (leavePass s).faddr = s.faddr ∧ (leavePass s).cfg = s.cfg ∧ (leavePass s).mem = s.mem ∧
    (leavePass s).schedule = s.schedule ∧ (leavePass s).inPass = false ∧ (leavePass s).chan = 0 ∧
    (leavePass s).nAdmin = 0 ∧ (leavePass s).comb = false := by
  refine ⟨?_, ?_, ?_, ?_, ?_, ?_, ?_, ?_, ?_, ?_, ?_, ?_, ?_, ?_, ?_, ?_, ?_, ?_, ?_, ?_, ?_, ?_, ?_⟩ <;> rfl

@[simp] theorem endTick_fields (s : State) :
    (endTick s).banks = s.banks ∧ (endTick s).oscs = s.oscs ∧ (endTick s).chout = s.chout ∧
    (endTick s).sdiv = s.sdiv ∧ (endTick s).scur = s.scur ∧ (endTick s).send = s.send ∧
    (endTick s).tempoCnt = s.tempoCnt ∧ (endTick s).tempoReload = s.tempoReload ∧ (endTick s).bound = s.bound ∧
    (endTick s).progLen = s.progLen ∧ (endTick s).macroCount = s.macroCount ∧ (endTick s).out = s.comb ∧
    (endTick s).fault = s.fault ∧ (endTick s).fcode = s.fcode ∧ (endTick s).fchan = s.fchan ∧
    (endTick s).faddr = s.faddr ∧ (endTick s).cfg = s.cfg ∧ (endTick s).mem = s.mem ∧
    (endTick s).schedule = s.schedule ∧ (endTick s).inPass = false ∧ (endTick s).chan = 0 ∧
    (endTick s).nAdmin = 0 ∧ (endTick s).comb = false := by
  refine ⟨?_, ?_, ?_, ?_, ?_, ?_, ?_, ?_, ?_, ?_, ?_, ?_, ?_, ?_, ?_, ?_, ?_, ?_, ?_, ?_, ?_, ?_, ?_⟩ <;> rfl

/-- `endChannel` touches the locals of the TICK and, after channel 3, the output; nothing else. -/
@[simp] theorem endChannel_fields (s : State) :
    (endChannel s).banks = s.banks ∧ (endChannel s).oscs = s.oscs ∧ (endChannel s).chout = s.chout ∧
    (endChannel s).sdiv = s.sdiv ∧ (endChannel s).scur = s.scur ∧ (endChannel s).send = s.send ∧
    (endChannel s).tempoCnt = s.tempoCnt ∧ (endChannel s).tempoReload = s.tempoReload ∧
    (endChannel s).bound = s.bound ∧ (endChannel s).progLen = s.progLen ∧
    (endChannel s).macroCount = s.macroCount ∧ (endChannel s).fault = s.fault ∧ (endChannel s).fcode = s.fcode ∧
    (endChannel s).fchan = s.fchan ∧ (endChannel s).faddr = s.faddr ∧ (endChannel s).cfg = s.cfg ∧
    (endChannel s).mem = s.mem ∧ (endChannel s).schedule = s.schedule ∧ (endChannel s).nAdmin = 0 := by
  unfold endChannel
  split <;> simp

@[simp] theorem continueLoop_fields (s : State) :
    (continueLoop s).banks = s.banks ∧ (continueLoop s).oscs = s.oscs ∧ (continueLoop s).chout = s.chout ∧
    (continueLoop s).sdiv = s.sdiv ∧ (continueLoop s).scur = s.scur ∧ (continueLoop s).send = s.send ∧
    (continueLoop s).tempoCnt = s.tempoCnt ∧ (continueLoop s).tempoReload = s.tempoReload ∧
    (continueLoop s).bound = s.bound ∧ (continueLoop s).progLen = s.progLen ∧
    (continueLoop s).macroCount = s.macroCount ∧ (continueLoop s).out = s.out ∧ (continueLoop s).fault = s.fault ∧
    (continueLoop s).fcode = s.fcode ∧ (continueLoop s).fchan = s.fchan ∧ (continueLoop s).faddr = s.faddr ∧
    (continueLoop s).cfg = s.cfg ∧ (continueLoop s).mem = s.mem ∧ (continueLoop s).schedule = s.schedule ∧
    (continueLoop s).inPass = s.inPass ∧ (continueLoop s).chan = s.chan ∧
    (continueLoop s).nAdmin = s.nAdmin + 1 ∧ (continueLoop s).comb = s.comb := by
  refine ⟨?_, ?_, ?_, ?_, ?_, ?_, ?_, ?_, ?_, ?_, ?_, ?_, ?_, ?_, ?_, ?_, ?_, ?_, ?_, ?_, ?_, ?_, ?_⟩ <;> rfl

@[simp] theorem bank_endChannel (s : State) (c : Chan) : (endChannel s).bank c = s.bank c := by simp [State.bank]
@[simp] theorem osc_endChannel (s : State) (c : Pulse) : (endChannel s).osc c = s.osc c := by simp [State.osc]
@[simp] theorem outBit_endChannel (s : State) (c : Chan) : (endChannel s).outBit c = s.outBit c := by simp [State.outBit]
@[simp] theorem bank_continueLoop (s : State) (c : Chan) : (continueLoop s).bank c = s.bank c := rfl
@[simp] theorem osc_continueLoop (s : State) (c : Pulse) : (continueLoop s).osc c = s.osc c := rfl
@[simp] theorem outBit_continueLoop (s : State) (c : Chan) : (continueLoop s).outBit c = s.outBit c := rfl
@[simp] theorem bank_raiseFault (k : Cause) (x : Nat) (s : State) (c : Chan) : (raiseFault k x s).bank c = s.bank c := rfl
@[simp] theorem osc_raiseFault (k : Cause) (x : Nat) (s : State) (c : Pulse) : (raiseFault k x s).osc c = s.osc c := rfl
@[simp] theorem outBit_raiseFault (k : Cause) (x : Nat) (s : State) (c : Chan) :
    (raiseFault k x s).outBit c = s.outBit c := rfl

/-! ### The ends of a command: what each means -/

/-- Raising a fault is entering it (R253). -/
theorem raiseFault_entered (cause : Cause) (x : Nat) (s : State) : faultEntered cause x s (raiseFault cause x s) := by
  refine ⟨rfl, rfl, ?_, rfl, rfl, ⟨rfl, rfl, rfl, rfl⟩, ⟨⟨rfl, fun _ => rfl, rfl⟩, ⟨rfl, rfl, rfl⟩, ⟨rfl, rfl, fun _ => rfl⟩,
    rfl, fun _ _ => rfl⟩, fun _ => rfl, fun _ => rfl, ⟨rfl, rfl⟩, rfl⟩
  show (BitVec.ofNat 2 s.chan.val).toNat = s.chan.val
  have := s.chan.isLt
  simp only [BitVec.toNat_ofNat]
  omega

/-- The channel is done with after `endChannel`. -/
theorem endChannel_done (s : State) : channelDone s (endChannel s) := by
  refine ⟨by simp [sameRecord], ?_⟩
  split
  · next h => simp [endChannel, h]
  · next h => simp [endChannel, h, betweenSteps]

/-- After `endChannel` a pass goes on with the next channel, or the TICK has ended. -/
theorem endChannel_cases (s : State) :
    (s.chan.val < 3 ∧ (endChannel s).inPass = s.inPass ∧ (endChannel s).chan.val = s.chan.val + 1 ∧
      (endChannel s).comb = s.comb ∧ (endChannel s).out = s.out) ∨
    (s.chan = 3 ∧ betweenSteps (endChannel s) ∧ (endChannel s).out = s.comb) := by
  by_cases h : s.chan.val < 3
  · left; simp [endChannel, h]
  · right
    have h3 : s.chan = 3 := by have := s.chan.isLt; exact Fin.ext (by simp; omega)
    simp [endChannel, h3, betweenSteps]

/-- The tail of an administrative command: the cursor of the channel, and one command more. -/
@[simp] theorem continueAt_fields (w : Word) (s : State) :
    (continueAt w s).oscs = s.oscs ∧ (continueAt w s).chout = s.chout ∧
    (continueAt w s).sdiv = s.sdiv ∧ (continueAt w s).scur = s.scur ∧ (continueAt w s).send = s.send ∧
    (continueAt w s).tempoCnt = s.tempoCnt ∧ (continueAt w s).tempoReload = s.tempoReload ∧
    (continueAt w s).bound = s.bound ∧ (continueAt w s).progLen = s.progLen ∧
    (continueAt w s).macroCount = s.macroCount ∧ (continueAt w s).out = s.out ∧ (continueAt w s).fault = s.fault ∧
    (continueAt w s).fcode = s.fcode ∧ (continueAt w s).fchan = s.fchan ∧ (continueAt w s).faddr = s.faddr ∧
    (continueAt w s).cfg = s.cfg ∧ (continueAt w s).mem = s.mem ∧ (continueAt w s).schedule = s.schedule ∧
    (continueAt w s).inPass = s.inPass ∧ (continueAt w s).chan = s.chan ∧ (continueAt w s).nAdmin = s.nAdmin + 1 ∧
    (continueAt w s).comb = s.comb := by
  simp [continueAt]

theorem bank_continueAt (w : Word) (s : State) (c : Chan) :
    (continueAt w s).bank c = if c = s.chan then { s.here with cur := w } else s.bank c := by
  simp [continueAt, State.bank_setHere]

@[simp] theorem osc_continueAt (w : Word) (s : State) (c : Pulse) : (continueAt w s).osc c = s.osc c := rfl
@[simp] theorem outBit_continueAt (w : Word) (s : State) (c : Chan) : (continueAt w s).outBit c = s.outBit c := rfl

/-- The tail of an administrative command keeps the fetch loop going and writes only the channel's bank. -/
theorem continueAt_goesOn (w : Word) (s : State) :
    commandFrame s (continueAt w s) ∧ loopGoesOn s (continueAt w s) ∧
    (continueAt w s).bank s.chan = { s.here with cur := w } := by
  refine ⟨⟨?_, ?_, ?_, ?_, ?_⟩, ?_, ?_⟩
  · simp [sameEnvironment]
  · simp [sameBinding]
  · simp [sameSynth]
  · simp
  · intro d hd; simp [bank_continueAt, hd]
  · simp [loopGoesOn, sameRecord]
  · simp [bank_continueAt]

/-- The tail of a sounding event writes the channel's length and cursor and is done with the channel (R234). -/
theorem soundingTail_done (lo : Nibble) (s : State) :
    commandFrame s (soundingTail lo s) ∧ channelDone s (soundingTail lo s) ∧
    (soundingTail lo s).bank s.chan = { s.here with len := durRom s.cfg lo, cur := s.here.cur + 1 } ∧
    (∀ c, (soundingTail lo s).osc c = s.osc c) ∧ sameWindow s (soundingTail lo s) ∧
    (soundingTail lo s).tempoReload = s.tempoReload := by
  refine ⟨⟨?_, ?_, ?_, ?_, ?_⟩, ?_, ?_, ?_, ?_, ?_⟩
  · simp [sameEnvironment, soundingTail]
  · simp [sameBinding, soundingTail]
  · simp [sameSynth, soundingTail]
  · simp [soundingTail]
  · intro d hd; simp [soundingTail, State.bank_setHere, hd]
  · exact endChannel_done (s.setHere { s.here with len := durRom s.cfg lo, cur := s.here.cur + 1 })
  · simp [soundingTail, State.bank_setHere]
  · simp [soundingTail]
  · simp [sameWindow, soundingTail]
  · simp [soundingTail]

/-! ### Frames compose -/

/-- What two commands in a row leave alone, neither of which moves to another channel in between. -/
theorem commandFrame_trans {s t : State} (u : State) (hc : u.chan = s.chan) (h1 : commandFrame s u)
    (h2 : commandFrame u t) : commandFrame s t := by
  obtain ⟨⟨cfg1, mem1, sch1⟩, ⟨bd1, len1, mac1⟩, ⟨out1, div1, ph1⟩, cnt1, bank1⟩ := h1
  obtain ⟨⟨cfg2, mem2, sch2⟩, ⟨bd2, len2, mac2⟩, ⟨out2, div2, ph2⟩, cnt2, bank2⟩ := h2
  exact ⟨⟨cfg2.trans cfg1, fun a => (mem2 a).trans (mem1 a), sch2.trans sch1⟩,
    ⟨bd2.trans bd1, len2.trans len1, mac2.trans mac1⟩,
    ⟨out2.trans out1, div2.trans div1, fun c => (ph2 c).trans (ph1 c)⟩, cnt2.trans cnt1,
    fun d hd => (bank2 d (hc ▸ hd)).trans (bank1 d hd)⟩

theorem setHere_frame (s : State) (b : Bank) : commandFrame s (s.setHere b) :=
  ⟨⟨rfl, fun _ => rfl, rfl⟩, ⟨rfl, rfl, rfl⟩, ⟨rfl, rfl, fun _ => rfl⟩, rfl,
    fun d hd => by rw [State.bank_setHere, if_neg hd]⟩

/-- An administrative command that writes the channel's bank and moves its cursor. -/
theorem continueAt_setHere (w : Word) (b : Bank) (s : State) :
    commandFrame s (continueAt w (s.setHere b)) ∧ loopGoesOn s (continueAt w (s.setHere b)) ∧
    (continueAt w (s.setHere b)).bank s.chan = { b with cur := w } := by
  obtain ⟨frame, goesOn, bank⟩ := continueAt_goesOn w (s.setHere b)
  refine ⟨commandFrame_trans (s.setHere b) rfl (setHere_frame s b) frame, goesOn, ?_⟩
  have hchan : (s.setHere b).chan = s.chan := rfl
  rw [hchan] at bank
  rw [bank, State.here_setHere]

/-! ### The fetch -/

/-- Everything the fetch can answer (R174, R255). -/
theorem fetch_cases (s : State) :
    (s.progLen.toNat ≤ s.at ∧ fetch s = .raise .fetchRange s.at) ∨
    (s.at < s.progLen.toNat ∧ isSounding (s.mem.read s.at) = true ∧
      fetch s = .command (decodeCommand (s.mem.read s.at) 0#8)) ∨
    (s.at < s.progLen.toNat ∧ isSounding (s.mem.read s.at) = false ∧ s.nAdmin = fetchLimit s.cfg ∧
      fetch s = .raise .fetchLimit s.at) ∨
    (s.at + 1 = s.progLen.toNat ∧ isSounding (s.mem.read s.at) = false ∧ s.nAdmin ≠ fetchLimit s.cfg ∧
      takesOperand (s.mem.read s.at) = true ∧ fetch s = .raise .fetchRange (s.at + 1)) ∨
    (s.at + 1 < s.progLen.toNat ∧ isSounding (s.mem.read s.at) = false ∧ s.nAdmin ≠ fetchLimit s.cfg ∧
      takesOperand (s.mem.read s.at) = true ∧
      fetch s = .command (decodeCommand (s.mem.read s.at) (s.mem.read (s.at + 1)))) ∨
    (s.at < s.progLen.toNat ∧ isSounding (s.mem.read s.at) = false ∧ s.nAdmin ≠ fetchLimit s.cfg ∧
      takesOperand (s.mem.read s.at) = false ∧ fetch s = .command (decodeCommand (s.mem.read s.at) 0#8)) := by
  rcases Nat.lt_or_ge s.at s.progLen.toNat with h | h
  · cases hs : isSounding (s.mem.read s.at)
    · by_cases hn : s.nAdmin = fetchLimit s.cfg
      · exact .inr (.inr (.inl ⟨h, rfl, hn, by simp [fetch, memRead1_of_lt h, hs, hn]⟩))
      · cases ht : takesOperand (s.mem.read s.at)
        · exact .inr (.inr (.inr (.inr (.inr ⟨h, rfl, hn, rfl, by simp [fetch, memRead1_of_lt h, hs, hn, ht]⟩))))
        · rcases Nat.lt_or_ge (s.at + 1) s.progLen.toNat with h' | h'
          · exact .inr (.inr (.inr (.inr (.inl ⟨h', rfl, hn, rfl, by
              simp [fetch, memRead1_of_lt h, memRead1_of_lt h', hs, hn, ht]⟩))))
          · exact .inr (.inr (.inr (.inl ⟨by omega, rfl, hn, rfl, by
              simp [fetch, memRead1_of_lt h, memRead1_of_ge h', hs, hn, ht]⟩)))
    · exact .inr (.inl ⟨h, rfl, by simp [fetch, memRead1_of_lt h, hs]⟩)
  · exact .inl ⟨h, by simp [fetch, memRead1_of_ge h]⟩

end Sys2Proof.Machine
end

