-- ==== Sys2Proof/Laws/Exec.lean ====
section
/-! SUPPORT. Sys2Proof/Laws/Exec.lean: everything a command can do, said once; what later proofs need of a command they take
from `exec_cases` and the laws of the four operations it names, and unfold no meaning. -/

namespace Sys2Proof.Machine

/-- What REST and NOTE do before their common tail: nothing, a period and threshold that keep the phase, or a window. -/
def soundingPart (i : Instr) (s u : State) : Prop :=
  u = s ∨
  (∃ (h : s.chan.val < 3) (o : Osc), o.phase = (s.osc (pulseOf s.chan h)).phase ∧
    (o.duty.toNat ≤ o.period.toNat) ∧ u = s.setOsc (pulseOf s.chan h) o) ∨
  (s.chan = 3 ∧ ∃ p d, ∃ h : p.val ≤ 5, i = .note p d ∧ u = sampleSelect p h s)

/-- One inversion for all fourteen commands: an administrative command writes its channel's bank, or the tempo reload, and
goes on; a sounding event writes an oscillator or the sample window and ends; or the command faults. -/
theorem exec_cases (i : Instr) (s : State) :
    ∃ t, exec i s = .next t ∧
      ((i.sounding = false ∧ ∃ w b, b.len = s.here.len ∧ t = continueAt w (s.setHere b)) ∨
       (∃ w op, i = .tempo op ∧ t = continueAt w { s with tempoReload := tempoOf op }) ∨
       (i.sounding = true ∧ ∃ d u, soundingPart i s u ∧ t = soundingTail d u) ∨
       (∃ cause x, cause ≠ .progLen ∧ (cause ≠ .fetchRange → x = s.at) ∧ t = raiseFault cause x s)) := by
  have same : s.setHere s.here = s := State.setHere_here s
  have faults : ∀ cause, cause ≠ .progLen → ∃ k x, k ≠ .progLen ∧ (k ≠ .fetchRange → x = s.at) ∧
      raiseFault cause s.at s = raiseFault k x s := fun cause h => ⟨cause, s.at, h, fun _ => rfl, rfl⟩
  cases i with
  | rest d =>
    by_cases h : isPulse s.chan
    · refine ⟨_, by simp only [exec, execRest]; rw [dif_pos h], .inr (.inr (.inl ⟨rfl, d, _, .inr (.inl ⟨h, _, ?_, ?_, rfl⟩), rfl⟩))⟩
      · rfl
      · exact Nat.zero_le _
    · exact ⟨_, by simp only [exec, execRest]; rw [dif_neg h], .inr (.inr (.inl ⟨rfl, d, _, .inl rfl, rfl⟩))⟩
  | note p d =>
    by_cases h : isPulse s.chan
    · refine ⟨_, by simp only [exec, execNote]; rw [dif_pos h],
        .inr (.inr (.inl ⟨rfl, d, pulseNote (pulseOf s.chan h) p s, .inr (.inl ⟨h, _, ?_, ?_, rfl⟩), rfl⟩))⟩
      · rfl
      · show (noteRom s.cfg p >>> s.here.vol.toNat).toNat ≤ (noteRom s.cfg p).toNat
        rw [BitVec.toNat_ushiftRight, Nat.shiftRight_eq_div_pow]
        exact Nat.div_le_self _ _
    · have h3 : s.chan = 3 := by
        have := s.chan.isLt
        simp only [isPulse] at h
        exact Fin.ext (by simp; omega)
      by_cases h5 : p.val ≤ 5
      · exact ⟨_, by simp only [exec, execNote]; rw [dif_neg h, dif_pos h5],
          .inr (.inr (.inl ⟨rfl, d, _, .inr (.inr ⟨h3, p, d, h5, rfl, rfl⟩), rfl⟩))⟩
      · exact ⟨_, by simp only [exec, execNote]; rw [dif_neg h, dif_neg h5],
          .inr (.inr (.inr (faults .sampleId (by decide))))⟩
  | oct n => exact ⟨_, rfl, .inl ⟨rfl, s.here.cur + 1, { s.here with oct := octaveOf n }, rfl, rfl⟩⟩
  | vol v => exact ⟨_, rfl, .inl ⟨rfl, s.here.cur + 1, { s.here with vol := v }, rfl, rfl⟩⟩
  | illegalVol x => exact ⟨_, rfl, .inr (.inr (.inr (faults .volume (by decide))))⟩
  | loops op =>
    by_cases h0 : op = 0#8
    · exact ⟨_, by simp only [exec, execLoops]; rw [if_pos h0], .inr (.inr (.inr (faults .loopCount (by decide))))⟩
    · by_cases h5 : s.here.lsp.val < 5
      · refine ⟨_, by simp only [exec, execLoops]; rw [if_neg h0, dif_pos h5], .inl ⟨rfl, _, _, ?_, rfl⟩⟩
        rfl
      · exact ⟨_, by simp only [exec, execLoops]; rw [if_neg h0, dif_neg h5],
          .inr (.inr (.inr (faults .loopOvf (by decide))))⟩
  | loope =>
    by_cases h0 : s.here.lsp.val = 0
    · exact ⟨_, by simp only [exec, execLoope]; rw [dif_pos h0], .inr (.inr (.inr (faults .loopUnf (by decide))))⟩
    · by_cases hc : s.here.lcnt[s.here.lsp.val - 1]'(by have := s.here.lsp.isLt; omega) = 0#8
      · refine ⟨_, by simp only [exec, execLoope]; rw [dif_neg h0, if_pos hc], .inl ⟨rfl, _, _, ?_, rfl⟩⟩
        rfl
      · refine ⟨_, by simp only [exec, execLoope]; rw [dif_neg h0, if_neg hc], .inl ⟨rfl, _, _, ?_, rfl⟩⟩
        rfl
  | call op =>
    by_cases hm : macroUndefined s op
    · exact ⟨_, by simp only [exec, execCall]; rw [if_pos hm], .inr (.inr (.inr (faults .macroId (by decide))))⟩
    · cases hr : memRead2 s (slotAddr (macroSlot op)) with
      | error x =>
        exact ⟨_, by simp only [exec, execCall]; rw [if_neg hm, hr],
          .inr (.inr (.inr ⟨.fetchRange, x, by decide, fun h => absurd rfl h, rfl⟩))⟩
      | ok t =>
        refine ⟨_, by simp only [exec, execCall]; rw [if_neg hm, hr], .inl ⟨rfl, _, _, ?_, rfl⟩⟩
        rfl
  | tempo op => exact ⟨_, rfl, .inr (.inl ⟨_, op, rfl, rfl⟩)⟩
  | rsv4 op => exact ⟨_, rfl, .inl ⟨rfl, s.here.cur + 2, s.here, rfl, by rw [same]; rfl⟩⟩
  | rsv5 op => exact ⟨_, rfl, .inl ⟨rfl, s.here.cur + 2, s.here, rfl, by rw [same]; rfl⟩⟩
  | tie => exact ⟨_, rfl, .inl ⟨rfl, s.here.cur + 1, s.here, rfl, by rw [same]⟩⟩
  | illegalExt lo => exact ⟨_, rfl, .inr (.inr (.inr (faults .illegal (by decide))))⟩
  | ret =>
    by_cases hv : s.here.retv = true
    · refine ⟨_, by simp only [exec, execRet]; rw [if_pos hv], .inl ⟨rfl, _, _, ?_, rfl⟩⟩
      rfl
    · cases hr : memRead2 s (slotAddr s.chan.val) with
      | error x =>
        exact ⟨_, by simp only [exec, execRet]; rw [if_neg hv, hr],
          .inr (.inr (.inr ⟨.fetchRange, x, by decide, fun h => absurd rfl h, rfl⟩))⟩
      | ok t =>
        exact ⟨_, by simp only [exec, execRet]; rw [if_neg hv, hr], .inl ⟨rfl, t, s.here, rfl, by rw [same]⟩⟩

/-- The part of a sounding event before its tail stays on its channel and keeps what no command writes. -/
theorem soundingPart_frame {i : Instr} {s u : State} (h : soundingPart i s u) :
    u.chan = s.chan ∧ commandFrame s u ∧ u.inPass = s.inPass ∧ u.comb = s.comb ∧ u.out = s.out ∧ sameRecord s u := by
  rcases h with rfl | ⟨hc, o, ho, _, rfl⟩ | ⟨_, p, d, hp, _, rfl⟩
  · exact ⟨rfl, ⟨⟨rfl, fun _ => rfl, rfl⟩, ⟨rfl, rfl, rfl⟩, ⟨rfl, rfl, fun _ => rfl⟩, rfl, fun _ _ => rfl⟩, rfl, rfl, rfl,
      ⟨rfl, rfl, rfl, rfl⟩⟩
  · refine ⟨rfl, ⟨⟨rfl, fun _ => rfl, rfl⟩, ⟨rfl, rfl, rfl⟩, ⟨rfl, rfl, fun c => ?_⟩, rfl, fun _ _ => rfl⟩, rfl, rfl, rfl,
      ⟨rfl, rfl, rfl, rfl⟩⟩
    rw [State.osc_setOsc]
    split
    · next h => rw [ho, h]
    · rfl
  · exact ⟨rfl, ⟨⟨rfl, fun _ => rfl, rfl⟩, ⟨rfl, rfl, rfl⟩, ⟨rfl, rfl, fun _ => rfl⟩, rfl, fun _ _ => rfl⟩, rfl, rfl, rfl,
      ⟨rfl, rfl, rfl, rfl⟩⟩

/-- What every command answers, in the words of the claims: it goes on with the fetch loop, or is done with its channel, or
has faulted. -/
theorem exec_ends (i : Instr) (s : State) :
    ∃ t, exec i s = .next t ∧
      ((i.sounding = false ∧ commandFrame s t ∧ loopGoesOn s t) ∨
       (i.sounding = true ∧ commandFrame s t ∧ channelDone s t) ∨
       (∃ cause x, cause ≠ .progLen ∧ (cause ≠ .fetchRange → x = s.at) ∧ faultEntered cause x s t)) := by
  obtain ⟨t, ht, h⟩ := exec_cases i s
  refine ⟨t, ht, ?_⟩
  rcases h with ⟨hi, w, b, _, rfl⟩ | ⟨w, op, rfl, rfl⟩ | ⟨hi, d, u, hu, rfl⟩ | ⟨cause, x, h1, h2, rfl⟩
  · obtain ⟨frame, goesOn, _⟩ := continueAt_setHere w b s
    exact .inl ⟨hi, frame, goesOn⟩
  · obtain ⟨frame, goesOn, _⟩ := continueAt_goesOn w { s with tempoReload := tempoOf op }
    exact .inl ⟨rfl, frame, goesOn⟩
  · obtain ⟨hchan, hframe, hpass, hcomb, hout, hrec⟩ := soundingPart_frame hu
    obtain ⟨frame, done, _⟩ := soundingTail_done d u
    refine .inr (.inl ⟨hi, commandFrame_trans u hchan hframe frame, ?_⟩)
    simp only [channelDone, sameRecord, hchan, hpass, hcomb, hout] at done hrec ⊢
    obtain ⟨⟨r1, r2, r3, r4⟩, rest⟩ := done
    exact ⟨⟨r1.trans hrec.1, r2.trans hrec.2.1, r3.trans hrec.2.2.1, r4.trans hrec.2.2.2⟩, rest⟩
  · exact .inr (.inr ⟨cause, x, h1, h2, raiseFault_entered cause x s⟩)

end Sys2Proof.Machine
end

