-- ==== Sys2Proof/Laws/PerInstr.lean ====
section
/-! SUPPORT. Sys2Proof/Laws/PerInstr.lean: the family TableRow, one lemma per command: the encoding of a well-formed command
begins with a byte that matches a row of its own mnemonic in the opcode table. -/

namespace Sys2Proof.Laws.TableRow

/-- The first byte of the command's encoding matches a row of the opcode table with the command's mnemonic. -/
def Statement (i : Instr) : Prop :=
  i.wellFormed = true → ∃ b rest, encode i = b :: rest ∧ ∃ r ∈ opcodeTable, r.mnemonic = i.mnemonic ∧ r.matches b = true

/-- A row of the table that a byte matches. -/
theorem of_row {i : Instr} {b : Byte} {rest : List Byte} (r : OpcodeRow) (he : encode i = b :: rest)
    (hr : r ∈ opcodeTable) (hm : r.mnemonic = i.mnemonic) (hb : r.matches b = true) : Statement i :=
  fun _ => ⟨b, rest, he, r, hr, hm, hb⟩

theorem rest (d : Nibble) : Statement (.rest d) :=
  of_row ⟨"REST", 0x00#8, 0xF0#8⟩ rfl (by decide) rfl (by revert d; refine nibble_cases ?_; decide)

theorem note (p : NoteIndex) (d : Nibble) : Statement (.note p d) := by
  intro h
  refine ⟨_, _, rfl, ⟨"NOTE", (BitVec.ofNat 4 p.val ++ 0#4 : Byte), 0xF0#8⟩, ?_, rfl, ?_⟩
  · fin_cases p
    · simp [Instr.wellFormed] at h
    all_goals decide
  · clear h
    revert d
    refine nibble_cases ?_
    fin_cases p <;> decide

theorem oct (n : Nibble) : Statement (.oct n) :=
  of_row ⟨"OCT", 0xD0#8, 0xF0#8⟩ rfl (by decide) rfl (by revert n; refine nibble_cases ?_; decide)

theorem vol (v : BitVec 3) : Statement (.vol v) :=
  of_row ⟨"VOL", 0xE0#8, 0xF8#8⟩ rfl (by decide) rfl
    ((by decide : ∀ k : Fin 8, OpcodeRow.matches ⟨"VOL", 0xE0#8, 0xF8#8⟩ (0b11100#5 ++ BitVec.ofFin (w := 3) k) = true) v.toFin)

theorem illegalVol (x : BitVec 3) : Statement (.illegalVol x) :=
  of_row ⟨"ILLEGAL_VOL", 0xE8#8, 0xF8#8⟩ rfl (by decide) rfl
    ((by decide : ∀ k : Fin 8,
      OpcodeRow.matches ⟨"ILLEGAL_VOL", 0xE8#8, 0xF8#8⟩ (0b11101#5 ++ BitVec.ofFin (w := 3) k) = true) x.toFin)

theorem loops (op : Byte) : Statement (.loops op) := of_row ⟨"LOOPS", 0xF0#8, 0xFF#8⟩ rfl (by decide) rfl rfl

theorem loope : Statement .loope := of_row ⟨"LOOPE", 0xF1#8, 0xFF#8⟩ rfl (by decide) rfl rfl

theorem call (op : Byte) : Statement (.call op) := of_row ⟨"CALL", 0xF2#8, 0xFF#8⟩ rfl (by decide) rfl rfl

theorem tempo (op : Byte) : Statement (.tempo op) := of_row ⟨"TEMPO", 0xF3#8, 0xFF#8⟩ rfl (by decide) rfl rfl

theorem rsv4 (op : Byte) : Statement (.rsv4 op) := of_row ⟨"RSV4", 0xF4#8, 0xFF#8⟩ rfl (by decide) rfl rfl

theorem rsv5 (op : Byte) : Statement (.rsv5 op) := of_row ⟨"RSV5", 0xF5#8, 0xFF#8⟩ rfl (by decide) rfl rfl

theorem tie : Statement .tie := of_row ⟨"TIE", 0xF6#8, 0xFF#8⟩ rfl (by decide) rfl rfl

theorem illegalExt (lo : Nibble) : Statement (.illegalExt lo) := by
  intro h
  refine ⟨_, _, rfl, ⟨"ILLEGAL_EXT", (0b1111#4 ++ lo : Byte), 0xFF#8⟩, ?_, rfl, ?_⟩
  · revert h
    refine nibble_cases (P := fun lo => (Instr.illegalExt lo).wellFormed = true →
      (⟨"ILLEGAL_EXT", (0b1111#4 ++ lo : Byte), 0xFF#8⟩ : OpcodeRow) ∈ opcodeTable) ?_ lo
    decide
  · clear h
    revert lo
    refine nibble_cases ?_
    decide

theorem ret : Statement .ret := of_row ⟨"RET", 0xFF#8, 0xFF#8⟩ rfl (by decide) rfl rfl

end Sys2Proof.Laws.TableRow
end

