-- ==== Sys2Proof/Laws/Synth.lean ====
section
/-! SUPPORT. Sys2Proof/Laws/Synth.lean: what the synthesizer stage and the tempo countdown write, and what they leave. -/

namespace Sys2Proof.Machine

/-- SampleStep writes `SDIV`, `SCUR` and `CHOUT[3]` and nothing else. -/
theorem sampleStep_fields (s : State) :
    (sampleStep s).banks = s.banks ∧ (sampleStep s).oscs = s.oscs ∧ (sampleStep s).send = s.send ∧
    (sampleStep s).tempoCnt = s.tempoCnt ∧ (sampleStep s).tempoReload = s.tempoReload ∧
    (sampleStep s).bound = s.bound ∧ (sampleStep s).progLen = s.progLen ∧
    (sampleStep s).macroCount = s.macroCount ∧ (sampleStep s).out = s.out ∧ (sampleStep s).fault = s.fault ∧
    (sampleStep s).fcode = s.fcode ∧ (sampleStep s).fchan = s.fchan ∧ (sampleStep s).faddr = s.faddr ∧
    (sampleStep s).cfg = s.cfg ∧ (sampleStep s).mem = s.mem ∧ (sampleStep s).schedule = s.schedule ∧
    (sampleStep s).inPass = s.inPass ∧ (sampleStep s).chan = s.chan ∧ (sampleStep s).nAdmin = s.nAdmin ∧
    (sampleStep s).comb = s.comb := by
  unfold sampleStep
  split
  · split <;> simp
  · simp

/-- The synthesizer stage writes the oscillators, the channel outputs, `SDIV` and `SCUR` and nothing else (R150). -/
theorem synthStage_fields (s : State) :
    (synthStage s).banks = s.banks ∧ (synthStage s).send = s.send ∧ (synthStage s).tempoCnt = s.tempoCnt ∧
    (synthStage s).tempoReload = s.tempoReload ∧ (synthStage s).bound = s.bound ∧
    (synthStage s).progLen = s.progLen ∧ (synthStage s).macroCount = s.macroCount ∧ (synthStage s).out = s.out ∧
    (synthStage s).fault = s.fault ∧ (synthStage s).fcode = s.fcode ∧ (synthStage s).fchan = s.fchan ∧
    (synthStage s).faddr = s.faddr ∧ (synthStage s).cfg = s.cfg ∧ (synthStage s).mem = s.mem ∧
    (synthStage s).schedule = s.schedule ∧ (synthStage s).inPass = s.inPass ∧ (synthStage s).chan = s.chan ∧
    (synthStage s).nAdmin = s.nAdmin ∧ (synthStage s).comb = s.comb := by
  obtain ⟨h, _, rest⟩ := sampleStep_fields s
  simpa [synthStage, pulseStep] using And.intro h rest

/-- The sample registers and `CHOUT[3]` after the stage are those after SampleStep. -/
theorem synthStage_sample (s : State) :
    (synthStage s).sdiv = (sampleStep s).sdiv ∧ (synthStage s).scur = (sampleStep s).scur ∧
    (synthStage s).outBit 3 = (sampleStep s).outBit 3 := by
  refine ⟨rfl, rfl, ?_⟩
  simp [synthStage, pulseStep, State.outBit_setOutBit, chanOf]

/-- Each oscillator and its output after the stage (R153, R154). -/
theorem synthStage_pulse (s : State) (c : Pulse) :
    (synthStage s).osc c = advancePhase (s.bank (chanOf c)).oct (s.osc c) ∧
    (synthStage s).outBit (chanOf c) =
      decide (dutyHigh (advancePhase (s.bank (chanOf c)).oct (s.osc c))) := by
  obtain ⟨hbanks, hoscs, _⟩ := sampleStep_fields s
  have hb : ∀ c, (sampleStep s).bank c = s.bank c := fun c => by simp [State.bank, hbanks]
  have ho : ∀ c, (sampleStep s).osc c = s.osc c := fun c => by simp [State.osc, hoscs]
  fin_cases c <;> simp [synthStage, pulseStep, State.osc_setOsc, State.outBit_setOutBit, hb, ho, chanOf]

/-- TempoStep writes `TEMPO_CNT`, `OUT` and the locals of the TICK and nothing else (R170). -/
theorem tempoStep_fields (b : Bool) (s : State) :
    (tempoStep b s).banks = s.banks ∧ (tempoStep b s).oscs = s.oscs ∧ (tempoStep b s).chout = s.chout ∧
    (tempoStep b s).sdiv = s.sdiv ∧ (tempoStep b s).scur = s.scur ∧ (tempoStep b s).send = s.send ∧
    (tempoStep b s).tempoReload = s.tempoReload ∧ (tempoStep b s).bound = s.bound ∧
    (tempoStep b s).progLen = s.progLen ∧ (tempoStep b s).macroCount = s.macroCount ∧
    (tempoStep b s).fault = s.fault ∧ (tempoStep b s).fcode = s.fcode ∧ (tempoStep b s).fchan = s.fchan ∧
    (tempoStep b s).faddr = s.faddr ∧ (tempoStep b s).cfg = s.cfg ∧ (tempoStep b s).mem = s.mem ∧
    (tempoStep b s).schedule = s.schedule := by
  unfold tempoStep
  split <;> simp

/-- Beside the synthesizer's registers and the countdown, a TICK writes `OUT` and its own locals and nothing else. -/
theorem startTick_fields (s : State) :
    (startTick s).banks = s.banks ∧ (startTick s).send = s.send ∧ (startTick s).tempoReload = s.tempoReload ∧
    (startTick s).bound = s.bound ∧ (startTick s).progLen = s.progLen ∧ (startTick s).macroCount = s.macroCount ∧
    (startTick s).fault = s.fault ∧ (startTick s).fcode = s.fcode ∧ (startTick s).fchan = s.fchan ∧
    (startTick s).faddr = s.faddr ∧ (startTick s).cfg = s.cfg ∧ (startTick s).mem = s.mem ∧
    (startTick s).schedule = s.schedule := by
  unfold startTick
  split
  · have synth := synthStage_fields s
    have tempo := tempoStep_fields (combined (synthStage s)) (synthStage s)
    simp only [tempo, synth, and_self]
  · simp

end Sys2Proof.Machine
end

