-- ==== Sys2Proof/Laws/Step.lean ====
section
/-! SUPPORT. Sys2Proof/Laws/Step.lean: what a step is, case by case: a strobe, a TICK, a hold, a fetch. -/

namespace Sys2Proof.Machine

/-- Between the core's steps a step takes a strobe. -/
theorem step_strobe {s : State} (h : s.inPass = false) : step s = .next (takeStrobe s) := by
  simp [step, nextAction, h]

/-- A channel just come to that holds is held. -/
theorem step_hold {s : State} (h : s.inPass = true) (hn : s.nAdmin = 0) (hl : s.here.len ≠ 0#8) :
    step s = .next (hold s) := by
  simp [step, nextAction, h, hn, hl]

/-- A channel that does not hold fetches. -/
theorem step_fetch {s : State} (h : fetches s) :
    step s = match fetch s with
      | .command i => exec i s
      | .raise cause x => .next (raiseFault cause x s) := by
  have hne : ¬ (s.nAdmin = 0 ∧ holding s.here) := by
    rintro ⟨hn, hl⟩
    rcases h.2 with h | h
    · exact h hn
    · exact hl h
  simp only [step, nextAction, h.1, if_true, if_neg hne]
  cases fetch s <;> rfl

/-- In a pass a channel that does not fetch is one just come to that holds. -/
theorem holds_of_not_fetches {s : State} (h : s.inPass = true) (hf : ¬ fetches s) : s.nAdmin = 0 ∧ s.here.len ≠ 0#8 := by
  simpa [fetches, h] using hf

/-- When the next strobe is a TICK, the step begins it. -/
theorem step_tick {s : State} (h : tickNext s) : step s = .next (startTick { s with schedule := s.schedule.tail }) := by
  rw [step_strobe h.1]
  rcases h.2 with hs | ⟨rest, hs⟩
  · simp only [takeStrobe, hs]
    congr 2
    cases s
    simp_all
  · simp [takeStrobe, hs]

/-- A TICK of a bound, unfaulted core: the synthesizer stage, then the tempo step. -/
theorem step_tick_live {s : State} (h : tickNext s) (hl : live s) :
    step s = .next (tempoStep (combined (synthStage { s with schedule := s.schedule.tail }))
      (synthStage { s with schedule := s.schedule.tail })) := by
  rw [step_tick h, startTick, if_pos (by exact hl)]

/-- The hold arm, whole. -/
theorem hold_frame (s : State) :
    commandFrame s (hold s) ∧ channelDone s (hold s) ∧ (hold s).bank s.chan = { s.here with len := s.here.len - 1 } ∧
    (∀ c, (hold s).osc c = s.osc c) ∧ sameWindow s (hold s) ∧ (hold s).tempoReload = s.tempoReload := by
  refine ⟨⟨?_, ?_, ?_, ?_, ?_⟩, ?_, ?_, ?_, ?_, ?_⟩
  · simp [sameEnvironment, hold]
  · simp [sameBinding, hold]
  · simp [sameSynth, hold]
  · simp [hold]
  · intro d hd; simp [hold, State.bank_setHere, hd]
  · exact endChannel_done (s.setHere { s.here with len := s.here.len - 1 })
  · simp [hold, State.bank_setHere]
  · simp [hold]
  · simp [sameWindow, hold]
  · simp [hold]

/-- What every step of a pass answers, in the words of the claims: a command goes on with the fetch loop, which the fetch
limit allowed; or the channel is done with; or a fault is entered. -/
theorem step_pass_cases (s : State) (h : s.inPass = true) :
    ∃ t, step s = .next t ∧ commandFrame s t ∧
      ((fetches s ∧ loopGoesOn s t ∧ s.nAdmin ≠ fetchLimit s.cfg) ∨ channelDone s t ∨
       (∃ cause x, cause ≠ .progLen ∧ (cause ≠ .fetchRange → x = s.at) ∧ faultEntered cause x s t)) := by
  by_cases hf : fetches s
  · rw [step_fetch hf]
    have raised : ∀ cause x, cause ≠ .progLen → (cause ≠ .fetchRange → x = s.at) →
        ∃ t, Host.Outcome.next (raiseFault cause x s) = (.next t : Host.Outcome State Fault Refusal) ∧ commandFrame s t ∧
          ((fetches s ∧ loopGoesOn s t ∧ s.nAdmin ≠ fetchLimit s.cfg) ∨ channelDone s t ∨
           (∃ cause x, cause ≠ .progLen ∧ (cause ≠ .fetchRange → x = s.at) ∧ faultEntered cause x s t)) := by
      intro cause x h1 h2
      have entered := raiseFault_entered cause x s
      exact ⟨_, rfl, entered.2.2.2.2.2.2.1, .inr (.inr ⟨cause, x, h1, h2, entered⟩)⟩
    have executed : ∀ i : Instr, (i.sounding = true ∨ s.nAdmin ≠ fetchLimit s.cfg) →
        ∃ t, exec i s = .next t ∧ commandFrame s t ∧
          ((fetches s ∧ loopGoesOn s t ∧ s.nAdmin ≠ fetchLimit s.cfg) ∨ channelDone s t ∨
           (∃ cause x, cause ≠ .progLen ∧ (cause ≠ .fetchRange → x = s.at) ∧ faultEntered cause x s t)) := by
      intro i hi
      obtain ⟨t, ht, c⟩ := exec_ends i s
      refine ⟨t, ht, ?_⟩
      rcases c with ⟨hs, frame, goesOn⟩ | ⟨_, frame, done⟩ | ⟨cause, x, h1, h2, entered⟩
      · rw [hs] at hi
        exact ⟨frame, .inl ⟨hf, goesOn, hi.resolve_left (by decide)⟩⟩
      · exact ⟨frame, .inr (.inl done)⟩
      · exact ⟨entered.2.2.2.2.2.2.1, .inr (.inr ⟨cause, x, h1, h2, entered⟩)⟩
    rcases fetch_cases s with ⟨_, e⟩ | ⟨_, hs, e⟩ | ⟨_, _, _, e⟩ | ⟨_, _, _, _, e⟩ | ⟨_, _, hn, _, e⟩ | ⟨_, _, hn, _, e⟩
    · rw [e]; exact raised _ _ (by decide) (fun h => absurd rfl h)
    · rw [e]; exact executed _ (.inl (by rw [decodeCommand_sounding, hs]))
    · rw [e]; exact raised _ _ (by decide) (fun _ => rfl)
    · rw [e]; exact raised _ _ (by decide) (fun h => absurd rfl h)
    · rw [e]; exact executed _ (.inr hn)
    · rw [e]; exact executed _ (.inr hn)
  · obtain ⟨hn, hl⟩ := holds_of_not_fetches h hf
    obtain ⟨frame, done, _⟩ := hold_frame s
    exact ⟨_, step_hold h hn hl, frame, .inr (.inl done)⟩

/-- `after` is the answer of the step. -/
theorem after_eq {s t : State} (h : step s = .next t) : after s = t := by simp [after, h]

/-- A TICK that has ended stays as it is. -/
@[simp] theorem finishTick_of_ended {s : State} (k : Nat) (h : s.inPass = false) : finishTick k s = s := by
  cases k <;> simp [finishTick, h]

/-- In a pass one more step is taken first. -/
theorem finishTick_succ_of_step {s t : State} (k : Nat) (h : s.inPass = true) (hs : step s = .next t) :
    finishTick (k + 1) s = finishTick k t := by
  simp [finishTick, h, after_eq hs]

/-- The steps of a TICK can be taken in two goes. -/
theorem finishTick_add (j k : Nat) (s : State) : finishTick (j + k) s = finishTick k (finishTick j s) := by
  induction j generalizing s with
  | zero => simp [finishTick]
  | succ j ih =>
    cases h : s.inPass
    · simp [h]
    · rw [Nat.succ_add, finishTick, if_pos h, ih, finishTick, if_pos h]

end Sys2Proof.Machine
end

