-- ==== Sys2Proof/Tests/Slice0.lean ====
section
/-! SUPPORT. Sys2Proof/Tests/Slice0.lean: the model's own tests. Expected results are the vectors V<n> of
spec/95_test_vectors.md, with the configuration CFG_TEST of its section 1, and the byte patterns of spec/30_encoding.md.
The last part gives a witness for the hypotheses of every obligation. -/

namespace Sys2Proof.Tests

open Sys2Proof Sys2Proof.Machine

/-! ### States the tests start from -/

/-- CFG_TEST (95_test_vectors.md section 1). Bit `i` of the bank is 1 when 3 divides `i`. -/
def cfgTest : Config :=
  { noteRest := 65535
    noteOpen := #v[967, 912, 861, 813, 767, 724, 683, 645, 609, 575, 542]
    durOpen := #v[95, 47, 23, 11, 5, 2, 1, 0]
    sampleBank := BitVec.ofNat 1016
      (0x49249249249249249249249249249249249249249249249249249249249249249249249249249249249249249249249249249249249249249249249249249249249249249249249249249249249249249249249249249249249249249249249249249249249249249249249249249249249249249249249249249249249249)
    startRaw := #v[0, 8, 16, 24, 32, 40]
    sampleDiv := 1
    tempoReset := 2
    octReset := 8
    fetchLimitPred := 15 }

/-- A pass on channel `c`, whose cursor is at `a`, where `bytes` stand; they end the program. -/
def playing (c : Chan) (a : Nat) (bytes : List Byte) : State :=
  { State.reset with
    banks := Vector.replicate 4 { Bank.zero with cur := BitVec.ofNat 16 a, vol := 1, oct := 8 }
    cfg := cfgTest
    mem := Memory.load [] a bytes
    bound := true
    progLen := BitVec.ofNat 16 (a + bytes.length)
    inPass := true
    chan := c }

/-- The same with the bank of the channel changed. -/
def playingWith (c : Chan) (a : Nat) (bytes : List Byte) (f : Bank → Bank) : State :=
  let s := playing c a bytes
  s.setHere (f s.here)

/-- Between TICKs, with one oscillator in front. -/
def sounding (phase oct period duty : Word) : State :=
  { State.reset with
    banks := Vector.replicate 4 { Bank.zero with oct := oct }
    oscs := Vector.replicate 3 { phase := phase, period := period, duty := duty }
    cfg := cfgTest
    bound := true
    progLen := 8
    tempoCnt := 1 }

/-- Between TICKs, with a sample window. -/
def sampling (sdiv : Byte) (scur send : Word) (held : Bool) : State :=
  { sounding 0 0 0 0 with sdiv := sdiv, scur := scur, send := send, chout := Vector.replicate 4 held }

/-- Idle, with strobes to come. -/
def idle (strobes : List Strobe) : State := { State.reset with cfg := cfgTest, schedule := strobes }

/-- The fault record of a state. -/
def record (s : State) : Bool × BitVec 4 × BitVec 2 × Word := (s.fault, s.fcode, s.fchan, s.faddr)

/-! ### Well-formedness: what the check refuses -/

theorem test_note_zero_refused : (Instr.note 0 3#4).wellFormed = false := by decide
theorem test_note_twelve_accepted : (Instr.note 12 3#4).wellFormed = true := by decide
theorem test_illegalExt_below_refused : (Instr.illegalExt 6#4).wellFormed = false := by decide
theorem test_illegalExt_above_refused : (Instr.illegalExt 15#4).wellFormed = false := by decide
theorem test_illegalExt_ends_accepted :
    (Instr.illegalExt 7#4).wellFormed = true ∧ (Instr.illegalExt 14#4).wellFormed = true := by decide

/-! ### Decoding: words written out from 30_encoding.md R104, R105 and its section 7 -/

theorem test_decode_rest : decode [0b00001111#8] = .ok (.rest 15#4, []) := by rfl
theorem test_decode_note : decode [0b00010000#8] = .ok (.note 1 0#4, []) := by rfl
theorem test_decode_note_last : decode [0b11000111#8] = .ok (.note 12 7#4, []) := by rfl
theorem test_decode_oct : decode [0b11010011#8] = .ok (.oct 3#4, []) := by rfl
theorem test_decode_vol : decode [0b11100111#8] = .ok (.vol 7#3, []) := by rfl
theorem test_decode_illegalVol : decode [0b11101000#8] = .ok (.illegalVol 0#3, []) := by rfl
theorem test_decode_loops : decode [0b11110000#8, 0b00000011#8, 0b00010000#8] = .ok (.loops 3#8, [0b00010000#8]) := by rfl
theorem test_decode_loope : decode [0b11110001#8, 0b00000011#8] = .ok (.loope, [0b00000011#8]) := by rfl
theorem test_decode_call : decode [0b11110010#8, 0b00000000#8] = .ok (.call 0#8, []) := by rfl
theorem test_decode_tempo : decode [0b11110011#8, 0b01000000#8] = .ok (.tempo 64#8, []) := by rfl
theorem test_decode_rsv4 : decode [0b11110100#8, 0b01111111#8] = .ok (.rsv4 127#8, []) := by rfl
theorem test_decode_rsv5 : decode [0b11110101#8, 0b00000000#8] = .ok (.rsv5 0#8, []) := by rfl
theorem test_decode_tie : decode [0b11110110#8, 0b00010000#8] = .ok (.tie, [0b00010000#8]) := by rfl
theorem test_decode_illegalExt_first : decode [0b11110111#8] = .ok (.illegalExt 7#4, []) := by rfl
theorem test_decode_illegalExt_last : decode [0b11111110#8] = .ok (.illegalExt 14#4, []) := by rfl
theorem test_decode_ret : decode [0b11111111#8] = .ok (.ret, []) := by rfl
theorem test_decode_empty : decode [] = .error .noByte := by rfl
theorem test_decode_cut_off : decode [0b11110000#8] = .error .noOperand := by rfl

/-- A two-byte word of the table: byte 0 is `w[7:0]`, byte 1 is `w[15:8]`. -/
theorem test_decodeTableWord_two_bytes : decodeTableWord 16 0x03F0 = some (.loops 3#8) := by rfl

/-- A row of 8 bits whose operand byte is 0. -/
theorem test_decodeTableWord_one_byte : decodeTableWord 8 0x03F0 = some (.loops 0#8) := by rfl

/-! ### Sounding events: V1, V4, V6, V7, V9 -/

theorem test_note_on_pulse :
    let t := after (playing 0 8 [0x10])
    (t.osc 0).period = 1024 ∧ (t.osc 0).duty = 512 ∧ (t.bank 0).len = 127 ∧ (t.bank 0).cur = 9 ∧ t.chan = 1 := by decide

theorem test_note_on_sample_channel :
    let t := after (playing 3 8 [0x23])
    t.scur = 8 ∧ t.send = 16 ∧ (t.bank 3).len = 15 ∧ (t.bank 3).cur = 9 ∧ t.inPass = false ∧
      record (after (playing 3 10 [0x60])) = (true, 8#4, 3#2, 10#16) := by decide

theorem test_rest_on_pulse :
    let t := after { playing 0 8 [0x07] with oscs := Vector.replicate 3 { phase := 300, period := 1024, duty := 512 } }
    (t.osc 0).duty = 0 ∧ (t.osc 0).period = 1024 ∧ (t.osc 0).phase = 300 ∧ (t.osc 1).duty = 512 ∧ (t.bank 0).cur = 9 := by
  decide

theorem test_rest_on_sample_channel :
    let t := after { playing 3 8 [0x07] with scur := 10, send := 16 }
    t.scur = 10 ∧ t.send = 16 ∧ (t.bank 3).len = 0 ∧ (t.bank 3).cur = 9 := by decide

/-! ### Administrative events: V22, V24, V25, V26 -/

theorem test_oct_top : ((after (playing 0 8 [0xDF])).bank 0).oct = 32768 ∧ (after (playing 0 8 [0xDF])).nAdmin = 1 := by
  decide

theorem test_vol :
    ((after (playing 0 8 [0xE7])).bank 0).vol = 7 ∧ ((after (playing 0 8 [0xE7])).bank 0).cur = 9 := by decide

theorem test_illegalVol :
    record (after (playing 0 10 [0xE8])) = (true, 9#4, 0#2, 10#16) ∧ ((after (playing 0 10 [0xE8])).bank 0).vol = 1 := by
  decide

/-! ### Extended commands: V31, V35, V37, V39, V42, V44, V46, V48, V51, V53, V54, V56, V57 -/

theorem test_loops_fifth :
    let t := after (playingWith 0 8 [0xF0, 0x01] fun b => { b with lsp := 4 })
    (t.bank 0).lret[4] = 10 ∧ (t.bank 0).lcnt[4] = 0 ∧ (t.bank 0).lsp = 5 ∧ (t.bank 0).cur = 10 := by decide

theorem test_loops_count_before_overflow :
    record (after (playingWith 0 10 [0xF0, 0x00] fun b => { b with lsp := 5 })) = (true, 6#4, 0#2, 10#16) := by decide

theorem test_loope_repeats :
    let t := after (playingWith 0 12 [0xF1] fun b => { b with lsp := 1, lret := b.lret.set 0 10, lcnt := b.lcnt.set 0 2 })
    (t.bank 0).cur = 10 ∧ (t.bank 0).lcnt[0] = 1 ∧ (t.bank 0).lsp = 1 := by decide

theorem test_loope_pops_inner :
    let t := after (playingWith 0 17 [0xF1] fun b => { b with lsp := 2, lret := b.lret.set 0 12, lcnt := b.lcnt.set 0 1 })
    (t.bank 0).cur = 18 ∧ (t.bank 0).lsp = 1 ∧ (t.bank 0).lcnt[0] = 1 ∧ (t.bank 0).lret[0] = 12 := by decide

theorem test_call_overwrites :
    let t := after { playingWith 0 17 [0xF2, 0x01] (fun b => { b with retv := true, ret := 14 }) with
      mem := Memory.load [] 10 [0x00, 0x15, 0, 0, 0, 0, 0, 0xF2, 0x01], macroCount := 2 }
    (t.bank 0).ret = 19 ∧ (t.bank 0).retv = true ∧ (t.bank 0).cur = 21 := by decide

theorem test_call_slot_outside :
    record (after { playing 0 10 [0xF2, 0x05, 0, 0] with macroCount := 256 }) = (true, 2#4, 0#2, 18#16) := by decide

theorem test_ret_returns :
    let t := after (playingWith 0 17 [0xFF] fun b => { b with retv := true, ret := 12 })
    (t.bank 0).cur = 12 ∧ (t.bank 0).retv = false ∧ (t.bank 0).ret = 0 := by decide

theorem test_ret_restarts :
    ((after { playing 3 14 [0xFF] with mem := Memory.load [] 6 [0x00, 0x0A, 0, 0, 0, 0, 0, 0, 0xFF] }).bank 3).cur = 10 := by
  decide

theorem test_tempo :
    let t := after { playing 0 10 [0xF3, 0xFF] with tempoReload := 2, tempoCnt := 2 }
    t.tempoReload = 4080 ∧ t.tempoCnt = 2 ∧ (t.bank 0).cur = 12 := by decide

theorem test_rsv4 : ((after (playing 0 8 [0xF4, 0x7F])).bank 0).cur = 10 ∧ (after (playing 0 8 [0xF4, 0x7F])).nAdmin = 1 := by
  decide

theorem test_rsv4_operand_outside : record (after (playing 0 10 [0xF4])) = (true, 2#4, 0#2, 11#16) := by decide

theorem test_rsv5 : ((after (playing 0 8 [0xF5, 0x00])).bank 0).cur = 10 ∧ (after (playing 0 8 [0xF5, 0x00])).nAdmin = 1 := by
  decide

theorem test_tie : ((after (playing 0 8 [0xF6])).bank 0).cur = 9 ∧ (after (playing 0 8 [0xF6])).nAdmin = 1 := by decide

theorem test_illegalExt :
    record (after (playing 2 10 [0xF7])) = (true, 3#4, 2#2, 10#16) ∧ ((after (playing 2 10 [0xF7])).bank 2).cur = 10 := by
  decide

/-! ### Fetch, hold, synthesizer, control: V60, V64, V65, V72, V80, V86, V87, V92, V93, V102, V103, V107 -/

theorem test_hold :
    let t := after (playingWith 0 8 [0x10] fun b => { b with len := 2 })
    (t.bank 0).len = 1 ∧ (t.bank 0).cur = 8 ∧ t.chan = 1 := by decide

theorem test_fetch_limit_before_illegal :
    record (after { playing 0 26 [0xF7] with nAdmin := 16 }) = (true, 10#4, 0#2, 26#16) := by decide

theorem test_fetch_limit_spares_sounding : ((after { playing 0 26 [0x10] with nAdmin := 16 }).bank 0).len = 127 := by decide

theorem test_tempo_reload :
    let t := after { sounding 0 8 65535 0 with tempoCnt := 0, tempoReload := 2 }
    t.tempoCnt = 2 ∧ t.inPass = true ∧ t.chan = 0 := by decide

theorem test_pulse_wraps :
    let t := after (sounding 1020 8 1024 512)
    (t.osc 0).phase = 4 ∧ t.outBit 0 = true ∧ t.out = true ∧ t.tempoCnt = 0 := by decide

theorem test_pulse_truncates :
    let t := after (sounding 60000 32768 1024 512)
    (t.osc 2).phase = 26208 ∧ t.outBit 2 = false ∧ t.out = false := by decide

theorem test_pulse_zero_period : ((after (sounding 65535 32768 0 0)).osc 1).phase = 32767 := by decide

theorem test_sample_bit :
    let t := after (sampling 0 9 16 false)
    t.sdiv = 1 ∧ t.scur = 10 ∧ t.send = 16 ∧ t.outBit 3 = true := by decide +kernel

theorem test_sample_window_ends :
    let t := after (sampling 0 16 16 true)
    t.sdiv = 1 ∧ t.scur = 16 ∧ t.outBit 3 = false := by decide

theorem test_play :
    let t := after (idle [.command (.play [0x00, 0x08, 0x00, 0x09, 0x00, 0x0A, 0x00, 0x0B, 0x10, 0x00, 0x00, 0x00] 12 0)])
    (t.bank 0).cur = 8 ∧ (t.bank 3).cur = 11 ∧ (t.bank 1).vol = 1 ∧ (t.bank 2).oct = 8 ∧ (t.osc 2).period = 65535 ∧
      t.tempoReload = 2 ∧ t.bound = true ∧ t.progLen = 12 := by decide

theorem test_play_too_short :
    record (after (idle [.command (.play [] 7 0)])) = (true, 1#4, 0#2, 0#16) ∧
      (after (idle [.command (.play [] 7 0)])).bound = false := by decide

theorem test_play_before_tick :
    let t := after (idle [.both (.play [0x00, 0x08, 0x00, 0x08, 0x00, 0x08, 0x00, 0x08, 0x0F] 9 0)])
    t.bound = true ∧ t.schedule = [.tick] := by decide

/-! ### Witnesses: a state and operands that meet the hypotheses of each obligation, each clause at a boundary -/

/-- The bytes of a program of 9 bytes whose four slots point at `REST 15`. -/
def restTrack : List Byte := [0x00, 0x08, 0x00, 0x08, 0x00, 0x08, 0x00, 0x08, 0x0F]

theorem witness_DecodeInvertsEncode : (Instr.illegalExt 14#4).wellFormed = true ∧ (Instr.note 1 0#4).wellFormed = true := by
  decide

theorem witness_EncodeInvertsDecode : decode [0xF0#8, 0x03#8, 0x10#8] = .ok (.loops 3#8, [0x10#8]) := by rfl

theorem witness_DecodeProcedureArms :
    (1 ≤ (1 : NoteIndex).val ∧ (1#4).toNat = (1 : NoteIndex).val) ∧
    (1 ≤ (12 : NoteIndex).val ∧ (12#4).toNat = (12 : NoteIndex).val) ∧
    (7#4).toNat = (7#3).toNat ∧ (8#4).toNat = 8 + (0#3).toNat ∧ (15#4).toNat = 8 + (7#3).toNat := by decide

theorem witness_ConfigurationsAreTheWellFormedOnes :
    noteRom cfgTest 1 = 1024#16 ∧ (∀ k : Fin 16, k.val < 8 → (durRom cfgTest (BitVec.ofFin k)).toNat = 127 / 2 ^ k.val) ∧
    (∀ k : Fin 5, (sampleStart cfgTest k.castSucc).toNat ≤ (sampleStart cfgTest k.succ).toNat) ∧
    (sampleStart cfgTest 5).toNat ≤ 1016 ∧ 1 ≤ fetchLimit cfgTest := by decide

theorem witness_MemReadIsCheckedAndBigEndian :
    let s := playing 0 8 [0x10]
    8 < s.progLen.toNat ∧ s.progLen.toNat ≤ 9 ∧ s.progLen.toNat = 8 + 1 ∧ 7 + 1 < s.progLen.toNat := by decide

theorem witness_CoreNeverWritesMemory :
    (∃ t, step (playing 0 8 [0xF6]) = .next t) ∧ ∃ t, step (idle [.command (.play restTrack 9 0)]) = .next t :=
  ⟨⟨_, rfl⟩, ⟨_, rfl⟩⟩

theorem witness_PlayPlacesProgram : (playing 0 8 [0x10]).mem.wf = true ∧ 65535 < 65536 := by decide

theorem witness_InitStopAndResetZeroEverything :
    (idle [.command .init]).inPass = false ∧ (idle [.command .init]).schedule = .command .init :: [] ∧
    (idle [.command .stop]).schedule = .command .stop :: [] ∧ (idle [.reset]).schedule = .reset :: [] := by decide

theorem witness_PlayBindsOrRefuses :
    (idle [.command (.play restTrack 8 0)]).inPass = false ∧
    (idle [.command (.play restTrack 8 0)]).schedule = .command (.play restTrack 8 0) :: [] ∧
    (8 ≤ 8 ∧ 8 ≤ 65535) ∧ (8 ≤ 65535 ∧ 65535 ≤ 65535) ∧ (7 < 8 ∨ 65535 < 7) ∧ (65536 < 8 ∨ 65535 < 65536) := by decide

theorem witness_CommandGoesBeforeSimultaneousTick :
    (idle [.both .stop]).inPass = false ∧ (idle [.both .stop]).schedule = .both .stop :: [] := by decide

theorem witness_StrobesWaitForTheTickToEnd :
    (playing 0 8 [0xF6]).inPass = true ∧ ∃ t, step (playing 0 8 [0xF6]) = .next t := ⟨rfl, _, rfl⟩

theorem witness_OutputHoldsWhileATickIsInProgress : ∃ t, step (playing 0 8 [0xF6]) = .next t ∧ t.inPass = true :=
  ⟨_, rfl, rfl⟩

theorem witness_IdleAndHaltedTicksDoNothing :
    (tickNext (idle []) ∧ (idle []).bound = false) ∧
    (tickNext { sounding 0 8 65535 0 with fault := true, schedule := [.tick] } ∧
      ({ sounding 0 8 65535 0 with fault := true, schedule := [.tick] } : State).fault = true) :=
  ⟨⟨⟨rfl, .inl rfl⟩, rfl⟩, ⟨⟨rfl, .inr ⟨[], rfl⟩⟩, rfl⟩⟩

theorem witness_SampleStepOfATick :
    tickNext (sampling 0 15 16 false) ∧ live (sampling 0 15 16 false) ∧
    ((sampling 0 15 16 false).sdiv = 0#8 ∧ (sampling 0 15 16 false).scur.toNat < (sampling 0 15 16 false).send.toNat) ∧
    ((sampling 0 16 16 false).sdiv = 0#8 ∧ (sampling 0 16 16 false).send.toNat ≤ (sampling 0 16 16 false).scur.toNat) ∧
    (sampling 1 15 16 false).sdiv ≠ 0#8 :=
  ⟨⟨rfl, .inl rfl⟩, by decide, by decide, by decide, by decide⟩

theorem witness_PulseStepsOfATick : tickNext (sounding 1016 8 1024 0) ∧ live (sounding 1016 8 1024 0) :=
  ⟨⟨rfl, .inl rfl⟩, by decide⟩

theorem witness_PhaseTurnsModuloThePeriod :
    let s := sounding 1023 1024 1024 0
    tickNext s ∧ live s ∧ (s.osc 0).phase.toNat < (s.osc 0).period.toNat ∧
      (s.bank (chanOf 0)).oct.toNat ≤ (s.osc 0).period.toNat :=
  ⟨⟨rfl, .inl rfl⟩, by decide, by decide, by decide⟩

theorem witness_SampleCadenceIgnoresTempo :
    (tickNext (sampling 0 15 16 false) ∧ (∃ t, step (sampling 0 15 16 false) = .next t) ∧
      ∃ t', step { sampling 0 15 16 false with tempoCnt := 0, tempoReload := 5 } = .next t') ∧
    (playing 3 8 [0x23]).inPass = true ∧ ∃ t, step (playing 3 8 [0x23]) = .next t :=
  ⟨⟨⟨rfl, .inl rfl⟩, ⟨_, rfl⟩, ⟨_, rfl⟩⟩, rfl, _, rfl⟩

theorem witness_TempoCountdownOfATick :
    tickNext (sounding 0 8 65535 0) ∧ live (sounding 0 8 65535 0) ∧ (sounding 0 8 65535 0).tempoCnt ≠ 0#16 ∧
    ({ sounding 0 8 65535 0 with tempoCnt := 0 } : State).tempoCnt = 0#16 :=
  ⟨⟨rfl, .inl rfl⟩, by decide, by decide, by decide⟩

theorem witness_HoldCountsDown :
    let s := playingWith 3 8 [0x10] fun b => { b with len := 1 }
    s.inPass = true ∧ s.nAdmin = 0 ∧ s.here.len ≠ 0#8 := by decide

theorem witness_StepRunsTheDecodedCommand :
    (let s := playing 0 8 [0xF0, 0x03]
     fetches s ∧ decode [s.mem.read s.at, s.mem.read (s.at + 1)] = .ok (.loops 3#8, []) ∧
       s.at + (Instr.loops 3#8).length ≤ s.progLen.toNat ∧ s.nAdmin ≠ fetchLimit s.cfg) ∧
    (let s := { playing 3 8 [0x23] with nAdmin := 16 }
     fetches s ∧ decode [s.mem.read s.at, s.mem.read (s.at + 1)] = .ok (.note 2 3#4, [0x00#8]) ∧
       s.at + (Instr.note 2 3#4).length ≤ s.progLen.toNat ∧ (Instr.note 2 3#4).sounding = true) :=
  ⟨⟨⟨rfl, .inr rfl⟩, rfl, by decide, by decide⟩, ⟨⟨rfl, .inl (by decide)⟩, rfl, by decide, rfl⟩⟩

theorem witness_FetchFaultsInOrder :
    (fetches (playing 0 8 []) ∧ (playing 0 8 []).progLen.toNat ≤ (playing 0 8 []).at) ∧
    (let s := { playing 0 8 [0xD0] with nAdmin := 16 }
     fetches s ∧ s.at < s.progLen.toNat ∧ 12 < (s.mem.read s.at).toNat / 16 ∧ s.nAdmin = fetchLimit s.cfg) ∧
    (let s := playing 0 8 [0xF5]
     fetches s ∧ s.at + 1 = s.progLen.toNat ∧ takesOperand (s.mem.read s.at) = true ∧ s.nAdmin ≠ fetchLimit s.cfg) :=
  ⟨⟨⟨rfl, .inr rfl⟩, by decide⟩, ⟨⟨rfl, .inr rfl⟩, by decide, by decide, by decide⟩,
    ⟨⟨rfl, .inr rfl⟩, by decide, by decide, by decide⟩⟩

theorem witness_PassStepsChannelsInOrder :
    (playing 2 8 [0x10]).inPass = true ∧ ∃ t, step (playing 2 8 [0x10]) = .next t := ⟨rfl, _, rfl⟩

theorem witness_FetchWordRunsNext : State.reset.mem.wf = true ∧ decodeTableWord 16 0x03F0 = some (.loops 3#8) :=
  ⟨rfl, rfl⟩

theorem witness_EveryTickEnds : (sounding 0 8 65535 0).inPass = false := by decide

/-- One pass, every channel holding its last one, then a TICK without a pass. -/
def lastHold : State :=
  { sounding 0 8 1024 512 with
    banks := Vector.replicate 4 { Bank.zero with oct := 8, len := 1 }, tempoCnt := 0, tempoReload := 1 }

theorem witness_HoldLastsExactlyItsLength :
    lastHold.inPass = false ∧ lastHold.schedule = [] ∧ passesIn 2 lastHold ≤ (lastHold.bank 3).len.toNat ∧
    (coreSteps 2 lastHold).fault = false ∧
    (passesIn 2 lastHold = (lastHold.bank 3).len.toNat ∧ live (coreSteps 2 lastHold) ∧
      tempoElapsed (coreSteps 2 lastHold)) := by decide

theorem witness_NoteLoadsPeriodOrWaveform :
    (1 ≤ (1 : NoteIndex).val ∧ (playing 2 8 []).chan.val < 3) ∧
    (1 ≤ (5 : NoteIndex).val ∧ (playing 3 8 []).chan = 3 ∧ (5 : NoteIndex).val ≤ 5) ∧
    (1 ≤ (6 : NoteIndex).val ∧ (playing 3 8 []).chan = 3 ∧ 6 ≤ (6 : NoteIndex).val) := by decide

theorem witness_LoopsPushesOrFaults :
    (1#8 ≠ 0#8 ∧ (playingWith 0 8 [] fun b => { b with lsp := 4 }).here.lsp.val < 5) ∧
    (255#8 ≠ 0#8 ∧ (playingWith 0 8 [] fun b => { b with lsp := 5 }).here.lsp.val = 5) := by decide

theorem witness_LoopeRepeatsPopsOrFaults :
    (let s := playingWith 0 8 [] fun b => { b with lsp := 5, lcnt := b.lcnt.set 4 254 }
     s.here.lsp.val = (4 : Fin 5).val + 1 ∧ s.here.lcnt[(4 : Fin 5)] ≠ 0#8) ∧
    (let s := playingWith 0 8 [] fun b => { b with lsp := 1 }
     s.here.lsp.val = (0 : Fin 5).val + 1 ∧ s.here.lcnt[(0 : Fin 5)] = 0#8) ∧
    (playing 0 8 []).here.lsp = 0 := by decide

/-- The states after LOOPS 2 and after each LOOPE of an empty body. -/
def emptyLoop : Nat → State
  | 0 => { playingWith 0 8 [0xF0, 0x02, 0xF1] (fun b => { b with lsp := 1, lret := b.lret.set 0 10, lcnt := b.lcnt.set 0 1, cur := 10 })
            with nAdmin := 1 }
  | k + 1 =>
    match exec .loope (emptyLoop k) with
    | .next t => t
    | .fault _ => emptyLoop k
    | .refused _ => emptyLoop k

theorem witness_LoopBodyRunsOperandTimes :
    2#8 ≠ 0#8 ∧ (playing 0 8 [0xF0, 0x02, 0xF1]).here.lsp.val < 5 ∧
    exec (.loops 2#8) (playing 0 8 [0xF0, 0x02, 0xF1]) = .next (emptyLoop 0) ∧
    ∀ k, k < (2#8).toNat → sameLoopStack (emptyLoop k) (emptyLoop (k + 1 - 1)) ∧
      exec .loope (emptyLoop (k + 1 - 1)) = .next (emptyLoop (k + 1)) := by
  refine ⟨by decide, by decide, rfl, ?_⟩
  intro k hk
  refine ⟨⟨rfl, rfl, fun _ _ => ⟨rfl, rfl⟩⟩, ?_⟩
  have hk : k < 2 := hk
  interval_cases k <;> rfl

/-- A body with a nested loop: the live entries are as before, the dead one above them is not. -/
theorem witness_LoopBodyRunsOperandTimes_nested :
    ∃ t u, exec (.loops 1#8) (emptyLoop 0) = .next t ∧ exec .loope t = .next u ∧ sameLoopStack (emptyLoop 0) u ∧
      u.here.lret ≠ (emptyLoop 0).here.lret := ⟨_, _, rfl, rfl, ⟨rfl, rfl, by decide⟩, by decide⟩

theorem witness_CallJumpsThroughSlotOrFaults :
    (let s := { playing 0 8 [0, 0] with macroCount := 1 }
     (0#8).toNat < s.macroCount.toNat ∧ 2 * ((0#8).toNat + 4) + 1 < s.progLen.toNat) ∧
    (let s := { playing 0 8 [0, 0] with macroCount := 1 }; s.macroCount.toNat ≤ (1#8).toNat) ∧
    (let s := { playing 0 8 [] with macroCount := 256 }
     (255#8).toNat < s.macroCount.toNat ∧ s.progLen.toNat ≤ 2 * ((255#8).toNat + 4)) ∧
    (let s := { playing 0 8 [0] with macroCount := 1 }
     (0#8).toNat < s.macroCount.toNat ∧ s.progLen.toNat = 2 * ((0#8).toNat + 4) + 1) := by decide

theorem witness_RetReturnsOrRestarts :
    (playingWith 0 8 [] fun b => { b with retv := true }).here.retv = true ∧
    (playing 3 8 []).here.retv = false ∧ 8 ≤ (playing 3 8 []).progLen.toNat := by decide

theorem witness_RetResumesAfterTheLatestCall :
    ∃ t, exec (.call 0#8) { playing 0 10 [0xF2, 0x00] with macroCount := 1 } = .next t ∧ t.fault = false ∧
      t.chan = ({ playing 0 10 [0xF2, 0x00] with macroCount := 1 } : State).chan ∧
      t.here.ret = (t.bank 0).ret ∧ t.here.retv = (t.bank 0).retv := ⟨_, rfl, rfl, rfl, rfl, rfl⟩

theorem witness_ReservedCommandsSkipTwoBytes :
    (Instr.rsv4 255#8 = .rsv4 255#8 ∨ Instr.rsv4 255#8 = .rsv5 255#8) ∧
    (Instr.rsv5 0#8 = .rsv4 0#8 ∨ Instr.rsv5 0#8 = .rsv5 0#8) := by decide

theorem witness_CommandsReachOnlyTheirChannel :
    (∃ t, exec (.tempo 9#8) (playing 1 8 []) = .next t ∧ t.tempoReload ≠ (playing 1 8 []).tempoReload) ∧
    (∃ t, exec (.note 2 3#4) (playing 3 8 []) = .next t ∧ t.send ≠ (playing 3 8 []).send) ∧
    (∃ t, exec (.note 2 3#4) (playing 2 8 []) = .next t ∧ t.osc 2 ≠ (playing 2 8 []).osc 2) :=
  ⟨⟨_, rfl, by decide⟩, ⟨_, rfl, by decide⟩, ⟨_, rfl, by decide⟩⟩

theorem witness_FaultsArePrecise :
    (playing 1 10 [0xE9]).inPass = true ∧ (playing 1 10 [0xE9]).fault = false ∧
    ∃ t, step (playing 1 10 [0xE9]) = .next t ∧ t.fault = true := ⟨rfl, rfl, _, rfl, rfl⟩

theorem witness_OnlyTheHostClearsAFault :
    let s := { sounding 0 8 65535 0 with fault := true, schedule := [.command .stop] }
    s.fault = true ∧ ∃ t, step s = .next t ∧ t.fault = false := ⟨rfl, _, rfl, rfl⟩

theorem witness_EveryStepKeepsInvariants :
    StateInv (playing 1 8 [0x10]) ∧ ∃ t, step (playing 1 8 [0x10]) = .next t := by
  refine ⟨⟨rfl, ?_, fun c => .inr (.inl ?_), ?_, by decide, by decide, .inl rfl, (fun h => nomatch h), fun _ => by decide,
    fun _ => rfl, .inl ⟨rfl, rfl, rfl, rfl⟩, .inr ⟨rfl, ⟨rfl, rfl⟩, by decide, fun h => absurd rfl h, rfl⟩⟩, _, rfl⟩
  · simp only [Bank.slotClean]; decide
  · revert c; decide
  · simp only [Osc.dutyBelowPeriod]; decide

theorem witness_OutputIsAFunctionOfTheProgram :
    let s := idle [.command (.play restTrack 9 0)]
    let s' := { sounding 7 8 9 5 with schedule := [.command (.play restTrack 9 0)], mem := Memory.load [] 0 [0x55, 0x66] }
    s.inPass = false ∧ s'.inPass = false ∧ s.cfg = s'.cfg ∧ s.mem.wf = true ∧ s'.mem.wf = true ∧ 9 ≤ restTrack.length ∧
    s.schedule = [.command (.play restTrack 9 0)] ∧ s'.schedule = [.command (.play restTrack 9 0)] :=
  ⟨rfl, rfl, rfl, rfl, rfl, by decide, rfl, rfl⟩

end Sys2Proof.Tests
end

/-! The configurations (00_scope.md R4 to R6): the table reads meet R6 whatever the open entries, and from tables that meet
R6 a configuration is built whose reads are those tables. -/

namespace Sys2Proof.Machine

/-! ### Every configuration meets R6 -/

/-- The running maximum of the first `n` raw words, which `sampleStart` cuts off at 1016. -/
def startPeak (g : Config) (n : Nat) : Nat := ((g.startRaw.toList.take n).map BitVec.toNat).foldl max 0

theorem startPeak_zero (g : Config) : startPeak g 0 = 0 := rfl

theorem startPeak_succ (g : Config) {n : Nat} (h : n < 6) :
    startPeak g (n + 1) = max (startPeak g n) (g.startRaw[n]).toNat := by
  have hn : n < g.startRaw.toList.length := by simpa using h
  simp [startPeak, List.take_succ_eq_append_getElem hn]

theorem sampleStart_toNat (g : Config) (k : Fin 6) :
    (sampleStart g k).toNat = min 1016 (startPeak g (k.val + 1)) := by
  show (BitVec.ofNat 16 (min 1016 (startPeak g (k.val + 1)))).toNat = _
  rw [BitVec.toNat_ofNat]
  omega

theorem sampleStart_le (g : Config) (k : Fin 6) : (sampleStart g k).toNat ≤ 1016 := by
  rw [sampleStart_toNat]
  exact Nat.min_le_left _ _

theorem sampleStart_mono (g : Config) (k : Fin 5) : (sampleStart g k.castSucc).toNat ≤ (sampleStart g k.succ).toNat := by
  have hpeak := startPeak_succ g (n := k.val + 1) (by omega)
  simp only [sampleStart_toNat, Fin.val_castSucc, Fin.val_succ]
  omega

theorem noteRom_one (g : Config) : noteRom g 1 = 1024#16 := rfl

/-- The fixed half of the duration table (R4). -/
theorem durRom_toNat_of_lt (g : Config) {lo : Nibble} (h : lo.toNat < 8) : (durRom g lo).toNat = 127 / 2 ^ lo.toNat := by
  rw [durRom, if_pos h, BitVec.toNat_ushiftRight, Nat.shiftRight_eq_div_pow]
  rfl

/-! ### Tables that meet R6 are those of a configuration -/

/-- The configuration of a set of tables: their open entries. -/
def configOf (note : NoteIndex → Word) (dur : Nibble → Byte) (bits : Fin 1016 → Bool) (start : Fin 6 → Word) (div : Byte)
    (tempo oct : Word) (limit : Nat) : Config :=
  { noteRest := note 0
    noteOpen := Vector.ofFn fun k => note ⟨k.val + 2, by omega⟩
    durOpen := Vector.ofFn fun k => dur (BitVec.ofNat 4 (k.val + 8))
    sampleBank := BitVec.ofFnLE bits
    startRaw := Vector.ofFn start
    sampleDiv := div
    tempoReset := tempo
    octReset := oct
    fetchLimitPred := limit - 1 }

section
variable {note : NoteIndex → Word} {dur : Nibble → Byte} {bits : Fin 1016 → Bool} {start : Fin 6 → Word} {div : Byte}
  {tempo oct : Word} {limit : Nat}

theorem noteRom_configOf (h : note 1 = 1024#16) (i : NoteIndex) :
    noteRom (configOf note dur bits start div tempo oct limit) i = note i := by
  unfold noteRom
  split
  · next h0 => rw [Fin.ext (a := i) (b := 0) h0]; rfl
  · next h0 =>
    split
    · next h1 => rw [Fin.ext (a := i) (b := 1) h1, h]
    · next h1 =>
      have hi : (⟨i.val - 2 + 2, by omega⟩ : NoteIndex) = i := Fin.ext (by simp; omega)
      simp [configOf, hi]

theorem durRom_configOf (h : ∀ lo : Nibble, lo.toNat < 8 → (dur lo).toNat = 127 / 2 ^ lo.toNat) (lo : Nibble) :
    durRom (configOf note dur bits start div tempo oct limit) lo = dur lo := by
  by_cases h8 : lo.toNat < 8
  · exact BitVec.eq_of_toNat_eq ((durRom_toNat_of_lt _ h8).trans (h lo h8).symm)
  · have hlo : BitVec.ofNat 4 (lo.toNat - 8 + 8) = lo := by
      rw [Nat.sub_add_cancel (Nat.not_lt.mp h8), BitVec.ofNat_toNat, BitVec.setWidth_eq]
    simp [durRom, h8, configOf, hlo]

theorem sampleBit_configOf (i : Fin 1016) :
    sampleBit (configOf note dur bits start div tempo oct limit) i.val = bits i := by
  simp [sampleBit, configOf]

/-- The running maximum of a nondecreasing table is the table. -/
theorem startPeak_configOf (h : ∀ k : Fin 5, (start k.castSucc).toNat ≤ (start k.succ).toNat) (k : Fin 6) :
    startPeak (configOf note dur bits start div tempo oct limit) (k.val + 1) = (start k).toNat := by
  induction k using Fin.induction with
  | zero => simp [startPeak_succ, startPeak_zero, configOf]
  | succ k ih =>
    have hraw : (configOf note dur bits start div tempo oct limit).startRaw[k.succ.val] = start k.succ := by
      simp only [configOf, Vector.getElem_ofFn]
    rw [startPeak_succ _ k.succ.isLt, hraw, Fin.val_succ, ← Fin.val_castSucc, ih]
    exact max_eq_right (h k)

theorem start_le_last (h : ∀ k : Fin 5, (start k.castSucc).toNat ≤ (start k.succ).toNat) (k : Fin 6) :
    (start k).toNat ≤ (start 5).toNat :=
  (Fin.monotone_iff_le_succ (f := fun k => (start k).toNat)).mpr h (Fin.le_last k)

theorem sampleStart_configOf (h : ∀ k : Fin 5, (start k.castSucc).toNat ≤ (start k.succ).toNat)
    (h5 : (start 5).toNat ≤ 1016) (k : Fin 6) :
    sampleStart (configOf note dur bits start div tempo oct limit) k = start k := by
  have hk := start_le_last h k
  refine BitVec.eq_of_toNat_eq ?_
  rw [sampleStart_toNat, startPeak_configOf h]
  omega

theorem fetchLimit_configOf (h : 1 ≤ limit) :
    fetchLimit (configOf note dur bits start div tempo oct limit) = limit := Nat.sub_add_cancel h

end

/-- Settles O7: the table reads meet R6 for every configuration, and `configOf` has the given tables. -/
theorem configurationsAreTheWellFormedOnes : Obligations.ConfigurationsAreTheWellFormedOnes := by
  refine ⟨fun g => ⟨noteRom_one g, fun _ => durRom_toNat_of_lt g, sampleStart_mono g, sampleStart_le g 5,
    Nat.le_add_left 1 _⟩, ?_⟩
  intro note dur bits start div tempo oct limit hnote hdur hmono hlast hlimit
  exact ⟨configOf note dur bits start div tempo oct limit, noteRom_configOf hnote, durRom_configOf hdur,
    sampleBit_configOf, sampleStart_configOf hmono hlast, rfl, rfl, rfl, fetchLimit_configOf hlimit⟩

end Sys2Proof.Machine

/-! Determinism (00_scope.md R9). Two cores that differ only in bytes of program memory past the end of the program take
every step alike, since each read of memory is range-checked; a PLAY of a program placed whole makes two such cores. -/

namespace Sys2Proof.Machine

/-! ### The bytes of a program loaded by the host -/

/-- A loaded sequence reads back; every other offset reads as before. -/
theorem Memory.read_load {m : Memory} (hm : m.wf = true) (a : Nat) (bs : List Byte) {x : Nat} (hx : x < 65536) :
    (m.load a bs).read x = if x < a then m.read x else (bs[x - a]?).getD (m.read x) := by
  induction bs generalizing m a with
  | nil => simp [Memory.load]
  | cons b bs ih =>
    rw [Memory.load, ih (Memory.wf_place hm a b)]
    by_cases ha : a < 65536
    · rw [Memory.read_place hm ha]
      rcases Nat.lt_trichotomy x a with h | rfl | h
      · simp [h, Nat.lt_succ_of_lt h, Nat.ne_of_lt h]
      · simp
      · have hsub : x - a = x - (a + 1) + 1 := by omega
        simp [Nat.not_lt.mpr (Nat.le_of_lt h), Nat.not_lt.mpr h, Nat.ne_of_gt h, hsub]
    · have hlt : x < a := by omega
      simp [Memory.place, ha, hlt, Nat.lt_succ_of_lt hlt]

/-- Inside a sequence loaded from offset 0 the byte read does not depend on the memory it was loaded over. -/
theorem Memory.read_load_eq {m m' : Memory} (hm : m.wf = true) (hm' : m'.wf = true) (bs : List Byte) {x : Nat}
    (hx : x < 65536) (hlen : x < bs.length) : (m'.load 0 bs).read x = (m.load 0 bs).read x := by
  simp [Memory.read_load hm 0 bs hx, Memory.read_load hm' 0 bs hx, hlen]

/-! ### Another memory with the same program -/

/-- The state with another program memory. -/
def State.withMem (s : State) (m : Memory) : State := { s with mem := m }

/-- `m` holds the program of `s`: it reads as the memory of `s` at every offset below `PROG_LEN`. -/
def holdsProgram (s : State) (m : Memory) : Prop := ∀ a < s.progLen.toNat, m.read a = s.mem.read a

@[simp] theorem State.withMem_at (s : State) (m : Memory) : (s.withMem m).at = s.at := rfl
@[simp] theorem State.withMem_chan (s : State) (m : Memory) : (s.withMem m).chan = s.chan := rfl
@[simp] theorem State.withMem_nAdmin (s : State) (m : Memory) : (s.withMem m).nAdmin = s.nAdmin := rfl
@[simp] theorem State.withMem_cfg (s : State) (m : Memory) : (s.withMem m).cfg = s.cfg := rfl
@[simp] theorem State.withMem_schedule (s : State) (m : Memory) : (s.withMem m).schedule = s.schedule := rfl

/-- The program stays held by whatever keeps `PROG_LEN` and the memory. -/
theorem holdsProgram.of_frame {s t : State} {m : Memory} (hm : holdsProgram s m) (hlen : t.progLen = s.progLen)
    (hmem : ∀ a, t.mem.read a = s.mem.read a) : holdsProgram t m := by
  intro a ha
  rw [hmem, hm a (hlen ▸ ha)]

theorem memRead1_withMem {s : State} {m : Memory} (hm : holdsProgram s m) (a : Nat) :
    memRead1 (s.withMem m) a = memRead1 s a := by
  rcases Nat.lt_or_ge a s.progLen.toNat with h | h
  · rw [memRead1_of_lt (s := s.withMem m) h, memRead1_of_lt h]
    exact congrArg Except.ok (hm a h)
  · rw [memRead1_of_ge (s := s.withMem m) h, memRead1_of_ge h]

theorem memRead2_withMem {s : State} {m : Memory} (hm : holdsProgram s m) (a : Nat) :
    memRead2 (s.withMem m) a = memRead2 s a := by
  simp only [memRead2, memRead1_withMem hm]

theorem fetch_withMem {s : State} {m : Memory} (hm : holdsProgram s m) : fetch (s.withMem m) = fetch s := by
  simp only [fetch, memRead1_withMem hm, State.withMem_at, State.withMem_nAdmin, State.withMem_cfg]

/-! ### The operations do not look at the memory -/

theorem endChannel_withMem (s : State) (m : Memory) : endChannel (s.withMem m) = (endChannel s).withMem m := by
  unfold endChannel
  rw [apply_dite (State.withMem · m)]
  rfl

theorem soundingTail_withMem (d : Nibble) (s : State) (m : Memory) :
    soundingTail d (s.withMem m) = (soundingTail d s).withMem m :=
  endChannel_withMem (s.setHere { s.here with len := durRom s.cfg d, cur := s.here.cur + 1 }) m

theorem hold_withMem (s : State) (m : Memory) : hold (s.withMem m) = (hold s).withMem m :=
  endChannel_withMem (s.setHere { s.here with len := s.here.len - 1 }) m

theorem sampleStep_withMem (s : State) (m : Memory) : sampleStep (s.withMem m) = (sampleStep s).withMem m := by
  unfold sampleStep
  rw [apply_ite (State.withMem · m), apply_ite (State.withMem · m)]
  rfl

theorem synthStage_withMem (s : State) (m : Memory) : synthStage (s.withMem m) = (synthStage s).withMem m := by
  rw [synthStage, sampleStep_withMem]
  rfl

theorem tempoStep_withMem (b : Bool) (s : State) (m : Memory) :
    tempoStep b (s.withMem m) = (tempoStep b s).withMem m := by
  unfold tempoStep
  rw [apply_ite (State.withMem · m)]
  rfl

theorem startTick_withMem (s : State) (m : Memory) : startTick (s.withMem m) = (startTick s).withMem m := by
  unfold startTick
  rw [apply_ite (State.withMem · m)]
  simp only [synthStage_withMem, ← tempoStep_withMem]
  rfl

/-! ### A step of a pass commutes with the exchange of the memory -/

/-- The outcome with another program memory in its state. -/
def outcomeWithMem (m : Memory) : Host.Outcome State Fault Refusal → Host.Outcome State Fault Refusal
  | .next t => .next (t.withMem m)
  | .fault r => .fault r
  | .refused r => .refused r

section
variable {s : State} {m : Memory}

theorem execRest_withMem (d : Nibble) : execRest d (s.withMem m) = outcomeWithMem m (execRest d s) := by
  unfold execRest
  rw [apply_dite (outcomeWithMem m)]
  simp only [outcomeWithMem, ← soundingTail_withMem]
  rfl

theorem execNote_withMem (p : NoteIndex) (d : Nibble) :
    execNote p d (s.withMem m) = outcomeWithMem m (execNote p d s) := by
  unfold execNote
  rw [apply_dite (outcomeWithMem m), apply_dite (outcomeWithMem m)]
  simp only [outcomeWithMem, ← soundingTail_withMem]
  rfl

theorem execLoops_withMem (op : Byte) : execLoops op (s.withMem m) = outcomeWithMem m (execLoops op s) := by
  unfold execLoops
  rw [apply_ite (outcomeWithMem m), apply_dite (outcomeWithMem m)]
  rfl

theorem execLoope_withMem : execLoope (s.withMem m) = outcomeWithMem m (execLoope s) := by
  unfold execLoope
  rw [apply_dite (outcomeWithMem m), apply_ite (outcomeWithMem m)]
  rfl

theorem execCall_withMem (hm : holdsProgram s m) (op : Byte) :
    execCall op (s.withMem m) = outcomeWithMem m (execCall op s) := by
  unfold execCall
  rw [apply_ite (outcomeWithMem m), memRead2_withMem hm]
  cases memRead2 s (slotAddr (macroSlot op)) <;> rfl

theorem execRet_withMem (hm : holdsProgram s m) : execRet (s.withMem m) = outcomeWithMem m (execRet s) := by
  unfold execRet
  rw [apply_ite (outcomeWithMem m), State.withMem_chan, memRead2_withMem hm]
  cases memRead2 s (slotAddr s.chan.val) <;> rfl

theorem exec_withMem (hm : holdsProgram s m) (i : Instr) : exec i (s.withMem m) = outcomeWithMem m (exec i s) := by
  cases i with
  | rest d => exact execRest_withMem d
  | note p d => exact execNote_withMem p d
  | loops op => exact execLoops_withMem op
  | loope => exact execLoope_withMem
  | call op => exact execCall_withMem hm op
  | ret => exact execRet_withMem hm
  | oct n => rfl
  | vol v => rfl
  | illegalVol x => rfl
  | tempo op => rfl
  | rsv4 op => rfl
  | rsv5 op => rfl
  | tie => rfl
  | illegalExt lo => rfl

theorem step_withMem (hp : s.inPass = true) (hm : holdsProgram s m) :
    step (s.withMem m) = outcomeWithMem m (step s) := by
  by_cases hf : fetches s
  · rw [step_fetch hf, step_fetch (show fetches (s.withMem m) from hf), fetch_withMem hm]
    cases fetch s with
    | command i => exact exec_withMem hm i
    | raise cause x => rfl
  · obtain ⟨hn, hl⟩ := holds_of_not_fetches hp hf
    rw [step_hold hp hn hl, step_hold (s := s.withMem m) hp hn hl, hold_withMem]
    rfl

end

/-! ### Twin cores -/

/-- `s'` is `s` but for bytes of memory outside the program, and TICKs alone are to come. -/
def twins (s s' : State) : Prop := s.schedule = [] ∧ ∃ m, holdsProgram s m ∧ s' = s.withMem m

/-- Twins go on to twins when both do the same and memory, program length and strobes stay. -/
theorem twins_of_withMem {s t : State} {m : Memory} (hs : s.schedule = []) (hm : holdsProgram s m)
    (hlen : t.progLen = s.progLen) (hmem : ∀ a, t.mem.read a = s.mem.read a) (hsch : t.schedule = s.schedule) :
    twins t (t.withMem m) :=
  ⟨hsch.trans hs, m, hm.of_frame hlen hmem, rfl⟩

theorem twins_after {s s' : State} (hp : s.inPass = true) (h : twins s s') : twins (after s) (after s') := by
  obtain ⟨hs, m, hm, rfl⟩ := h
  obtain ⟨t, ht, ⟨⟨_, hmem, hsch⟩, ⟨_, hlen, _⟩, _⟩, _⟩ := step_pass_cases s hp
  have ht' : step (s.withMem m) = .next (t.withMem m) := by rw [step_withMem hp hm, ht]; rfl
  rw [after_eq ht, after_eq ht']
  exact twins_of_withMem hs hm hlen hmem hsch

theorem twins_takeStrobe {s s' : State} (h : twins s s') : twins (takeStrobe s) (takeStrobe s') := by
  obtain ⟨hs, m, hm, rfl⟩ := h
  obtain ⟨_, _, _, _, hlen, _, _, _, _, _, _, hmem, hsch⟩ := startTick_fields s
  have htick : takeStrobe s = startTick s := by rw [takeStrobe, hs]
  have htick' : takeStrobe (s.withMem m) = (startTick s).withMem m := by
    rw [← startTick_withMem, takeStrobe, State.withMem_schedule, hs]
  rw [htick, htick']
  exact twins_of_withMem hs hm hlen (fun _ => by rw [hmem]) hsch

theorem twins_inPass {s s' : State} (h : twins s s') : s'.inPass = s.inPass := by
  obtain ⟨_, m, _, rfl⟩ := h
  rfl

theorem twins_finishTick (k : Nat) {s s' : State} (h : twins s s') : twins (finishTick k s) (finishTick k s') := by
  induction k generalizing s s' with
  | zero => exact h
  | succ k ih =>
    rw [finishTick, finishTick, twins_inPass h]
    split
    · next hp => exact ih (twins_after hp h)
    · exact h

theorem twins_coreStep {s s' : State} (h : twins s s') : twins (coreStep s) (coreStep s') := by
  have hcfg : s'.cfg = s.cfg := by obtain ⟨_, m, _, rfl⟩ := h; rfl
  rw [coreStep, coreStep, hcfg]
  exact twins_finishTick _ (twins_takeStrobe h)

theorem twins_observed {s s' : State} (h : twins s s') : wireO s = wireO s' ∧ status s = status s' := by
  obtain ⟨_, m, _, rfl⟩ := h
  exact ⟨rfl, rfl⟩

/-- What is observed of twins is the same for any number of steps of the core. -/
theorem twins_run (n : Nat) {s s' : State} (h : twins s s') :
    outputs n s = outputs n s' ∧ status (coreSteps n s) = status (coreSteps n s') := by
  induction n generalizing s s' with
  | zero => exact ⟨rfl, (twins_observed h).2⟩
  | succ n ih =>
    have hstep := twins_coreStep h
    obtain ⟨houtputs, hstatus⟩ := ih hstep
    exact ⟨by rw [outputs, outputs, (twins_observed hstep).1, houtputs], hstatus⟩

/-! ### PLAY makes twins -/

theorem playBank_congr (g : Config) {m m' : Memory} (h : ∀ a < 8, m'.read a = m.read a) (c : Chan) :
    playBank g m' c = playBank g m c := by
  have hc := c.isLt
  have hword : m'.word (slotAddr c.val) = m.word (slotAddr c.val) := by
    rw [Memory.word, Memory.word, h _ (by unfold slotAddr; omega), h _ (by unfold slotAddr; omega)]
  rw [playBank, playBank, hword]

theorem doPlay_inPass (image : List Byte) (len : Nat) (macros : BitVec 9) (s : State) :
    (doPlay image len macros s).inPass = false := by
  unfold doPlay
  split <;> rfl

/-- A core step that takes a PLAY is the PLAY: it begins no TICK. -/
theorem coreStep_play {s : State} {image : List Byte} {len : Nat} {macros : BitVec 9} {rest : List Strobe}
    (h : s.schedule = .command (.play image len macros) :: rest) :
    coreStep s = doPlay image len macros { s with schedule := rest } := by
  have htake : takeStrobe s = doPlay image len macros { s with schedule := rest } := by rw [takeStrobe, h]; rfl
  rw [coreStep, htake, finishTick_of_ended _ (doPlay_inPass ..)]

/-- PLAY forgets all but the configuration, the strobes to come and the bytes outside the program (R132). -/
theorem twins_doPlay {s s' : State} {image : List Byte} {len : Nat} (macros : BitVec 9) (hcfg : s.cfg = s'.cfg)
    (hm : s.mem.wf = true) (hm' : s'.mem.wf = true) (hlen : len ≤ image.length) (hs : s.schedule = [])
    (hs' : s'.schedule = []) : twins (doPlay image len macros s) (doPlay image len macros s') := by
  have hread : ∀ a < min len 65536, (s'.mem.load 0 image).read a = (s.mem.load 0 image).read a := fun a ha =>
    Memory.read_load_eq hm hm' image (by omega) (by omega)
  unfold doPlay
  split
  · refine ⟨hs, s'.mem.load 0 image, fun a ha => absurd ha (Nat.not_lt_zero a), ?_⟩
    simp only [doInit, hcfg, hs, hs']
    rfl
  · next hok =>
    refine ⟨hs, s'.mem.load 0 image, fun a ha => hread a ?_, ?_⟩
    · have hprog : a < (BitVec.ofNat 16 len).toNat := ha
      rw [BitVec.toNat_ofNat] at hprog
      omega
    · have hbanks : playBank s'.cfg (s'.mem.load 0 image) = playBank s'.cfg (s.mem.load 0 image) :=
        funext (playBank_congr s'.cfg fun a ha => hread a (by omega))
      simp only [doInit, hcfg, hs, hs', hbanks]
      rfl

/-- Settles O50: the PLAY makes twins of the two cores, and TICKs keep them so. -/
theorem outputIsAFunctionOfTheProgram : Obligations.OutputIsAFunctionOfTheProgram := by
  intro n s s' image len macros _ _ hcfg hm hm' hlen hs hs'
  have hplay : twins (coreStep s) (coreStep s') := by
    rw [coreStep_play hs, coreStep_play hs']
    exact twins_doPlay macros hcfg hm hm' hlen rfl rfl
  obtain ⟨houtputs, hstatus⟩ := twins_run n hplay
  exact ⟨by rw [outputs, outputs, (twins_observed hplay).1, houtputs], hstatus⟩

end Sys2Proof.Machine

/-! The invariants of 10_state.md R46. They are those of the registers (`RegistersLegal`), kept by every legal write of one,
and those of the fault record and of a TICK's locals, kept by the ends of a command; a step of a pass is legal writes and
one end (`PassInv`), and a strobe zeroes the registers, binds a program or begins a TICK. -/

namespace Sys2Proof.Machine

/-! ### The invariants of the registers -/

/-- What the invariants say of one bank (R24, R25). -/
def Bank.legal (g : Config) (b : Bank) : Prop := b.slotClean ∧ b.octLegal g

/-- The invariants that speak neither of `OUT`, the fault record and the locals of a TICK nor of an unbound core. -/
structure RegistersLegal (s : State) : Prop where
  memory : s.mem.wf = true
  banks : ∀ c, (s.bank c).legal s.cfg
  duties : ∀ c, (s.osc c).dutyBelowPeriod
  sampleWindow : s.scur.toNat ≤ s.send.toNat
  sampleEnd : s.send.toNat ≤ 1016
  tempo : tempoLegal s
  header : s.bound = true → 8 ≤ s.progLen.toNat

/-- `t` has everything of `s` that `RegistersLegal` looks at. -/
def sameRegisters (s t : State) : Prop :=
  t.cfg = s.cfg ∧ t.mem = s.mem ∧ t.banks = s.banks ∧ t.oscs = s.oscs ∧ t.scur = s.scur ∧ t.send = s.send ∧
  t.tempoReload = s.tempoReload ∧ t.bound = s.bound ∧ t.progLen = s.progLen

theorem StateInv.registers {s : State} (h : StateInv s) : RegistersLegal s :=
  ⟨h.memory, fun c => ⟨h.slots c, h.octaves c⟩, h.duties, h.sampleWindow, h.sampleEnd, h.tempo, h.header⟩

/-- The invariants of a bound core. -/
theorem RegistersLegal.stateInv {s : State} (h : RegistersLegal s) (hbound : s.bound = true)
    (hsilent : s.fault = true → s.out = false) (hrecord : recordClear s ∨ recordWritten s)
    (hprogress : betweenSteps s ∨ inThePass s) : StateInv s where
  memory := h.memory
  slots c := (h.banks c).1
  octaves c := (h.banks c).2
  duties := h.duties
  sampleWindow := h.sampleWindow
  sampleEnd := h.sampleEnd
  tempo := h.tempo
  unbound hb := by rw [hbound] at hb; cases hb
  header := h.header
  faultSilent := hsilent
  record := hrecord
  progress := hprogress

/-- The invariants of a bound core without a fault. -/
theorem RegistersLegal.stateInv_of_clear {s : State} (h : RegistersLegal s) (hbound : s.bound = true)
    (hclear : recordClear s) (hprogress : betweenSteps s ∨ inThePass s) : StateInv s :=
  h.stateInv hbound (fun hf => by rw [hclear.1] at hf; cases hf) (.inl hclear) hprogress

section
variable {s t : State}

theorem RegistersLegal.of_same (h : RegistersLegal s) (same : sameRegisters s t) : RegistersLegal t := by
  obtain ⟨hcfg, hmem, hbanks, hoscs, hscur, hsend, htempo, hbound, hlen⟩ := same
  refine ⟨hmem ▸ h.memory, fun c => ?_, fun c => ?_, ?_, hsend ▸ h.sampleEnd, ?_, ?_⟩
  · rw [State.bank, hbanks, hcfg]; exact h.banks c
  · rw [State.osc, hoscs]; exact h.duties c
  · rw [hscur, hsend]; exact h.sampleWindow
  · rw [tempoLegal, htempo, hcfg]; exact h.tempo
  · rw [hbound, hlen]; exact h.header

theorem RegistersLegal.setHere (h : RegistersLegal s) {b : Bank} (hb : b.legal s.cfg) :
    RegistersLegal (s.setHere b) := by
  refine ⟨h.memory, fun c => ?_, h.duties, h.sampleWindow, h.sampleEnd, h.tempo, h.header⟩
  rw [State.bank_setHere]
  split
  · exact hb
  · exact h.banks c

theorem RegistersLegal.setOsc (h : RegistersLegal s) (p : Pulse) {o : Osc} (ho : o.dutyBelowPeriod) :
    RegistersLegal (s.setOsc p o) := by
  refine ⟨h.memory, h.banks, fun c => ?_, h.sampleWindow, h.sampleEnd, h.tempo, h.header⟩
  rw [State.osc_setOsc]
  split
  · exact ho
  · exact h.duties c

/-- The window of SampleSelect ends no lower than it begins (R6, R232); note 0, which is no sample, has an empty one. -/
theorem sampleStart_pred_le (g : Config) {k : Nat} (hk : k ≤ 5) :
    (sampleStart g ⟨k - 1, by omega⟩).toNat ≤ (sampleStart g ⟨k, by omega⟩).toNat := by
  cases k with
  | zero => exact Nat.le_refl _
  | succ k => exact sampleStart_mono g ⟨k, by omega⟩

/-- A selected waveform lies in the bank: the start table is nondecreasing and ends at most at 1016 (R6, R80). -/
theorem RegistersLegal.sampleSelect (h : RegistersLegal s) (p : NoteIndex) (hp : p.val ≤ 5) :
    RegistersLegal (sampleSelect p hp s) :=
  ⟨h.memory, h.banks, h.duties, sampleStart_pred_le s.cfg hp, sampleStart_le s.cfg _, h.tempo, h.header⟩

theorem RegistersLegal.setTempo (h : RegistersLegal s) (op : Byte) :
    RegistersLegal { s with tempoReload := tempoOf op } :=
  ⟨h.memory, h.banks, h.duties, h.sampleWindow, h.sampleEnd, .inr (.inr ⟨op, rfl⟩), h.header⟩

end

/-! ### A TICK's synthesizer stage and countdown -/

/-- The sample index moves only below the window's end (R151). -/
theorem sampleStep_scur_le {s : State} (h : s.scur.toNat ≤ s.send.toNat) :
    (sampleStep s).scur.toNat ≤ s.send.toNat := by
  unfold sampleStep
  split
  · split
    · next hplay =>
      have hsend := s.send.isLt
      have hplay : s.scur.toNat < s.send.toNat := hplay
      show (s.scur + 1).toNat ≤ s.send.toNat
      rw [BitVec.toNat_add_of_lt (by simpa using by omega)]
      exact hplay
    · exact h
  · exact h

theorem RegistersLegal.synthStage {s : State} (h : RegistersLegal s) : RegistersLegal (synthStage s) := by
  obtain ⟨hbanks, hsend, _, htempo, hbound, hlen, _, _, _, _, _, _, hcfg, hmem, _⟩ := synthStage_fields s
  obtain ⟨_, hscur, _⟩ := synthStage_sample s
  refine ⟨hmem ▸ h.memory, fun c => ?_, fun c => ?_, ?_, hsend ▸ h.sampleEnd, ?_, ?_⟩
  · rw [State.bank, hbanks, hcfg]; exact h.banks c
  · rw [(synthStage_pulse s c).1]; exact h.duties c
  · rw [hscur, hsend]; exact sampleStep_scur_le h.sampleWindow
  · rw [tempoLegal, htempo, hcfg]; exact h.tempo
  · rw [hbound, hlen]; exact h.header

/-- The tempo step begins a pass or ends the TICK (R170). -/
theorem tempoStep_stateInv {s : State} (h : RegistersLegal s) (hlive : live s) (hclear : recordClear s)
    (hidle : betweenSteps s) : StateInv (tempoStep (combined s) s) := by
  have fields := tempoStep_fields (combined s) s
  have hlegal : RegistersLegal (tempoStep (combined s) s) := h.of_same (by simp [sameRegisters, fields])
  have hlive' : live (tempoStep (combined s) s) := by simpa only [live, fields] using hlive
  have hclear' : recordClear (tempoStep (combined s) s) := by simpa only [recordClear, fields] using hclear
  refine hlegal.stateInv_of_clear hlive'.1 hclear' ?_
  unfold tempoStep
  split
  · exact .inr ⟨rfl, hlive, Nat.zero_le _, fun hn => absurd rfl hn, rfl⟩
  · exact .inl hidle

theorem StateInv.clear_of_unfaulted {s : State} (h : StateInv s) (hf : s.fault = false) : recordClear s :=
  h.record.resolve_right fun ⟨hw, _⟩ => by simp [hf] at hw

theorem startTick_stateInv {s : State} (h : StateInv s) (hidle : betweenSteps s) : StateInv (startTick s) := by
  unfold startTick
  split
  · next hlive =>
    have hclear := h.clear_of_unfaulted hlive.2
    have fields := synthStage_fields s
    refine tempoStep_stateInv h.registers.synthStage ?_ ?_ ?_
    · simpa only [live, fields] using hlive
    · simpa only [recordClear, fields] using hclear
    · simpa only [betweenSteps, fields] using hidle
  · exact h

/-! ### Host commands and reset -/

/-- The invariants of an unbound core. -/
theorem stateInv_of_registersZero {s : State} (hmem : s.mem.wf = true) (hzero : registersZero s)
    (hrecord : recordClear s ∨ recordWritten s) (hidle : betweenSteps s) : StateInv s := by
  have ⟨hbanks, hoscs, _, _, hscur, hsend, _, htempo, hbound, _, _, hout⟩ := hzero
  have hbank : ∀ c, s.bank c = Bank.zero := fun c => by simp [State.bank, hbanks]
  have hosc : ∀ c, s.osc c = Osc.zero := fun c => by simp [State.osc, hoscs]
  exact
    { memory := hmem
      slots := fun c _ => by rw [hbank]; rfl
      octaves := fun c => .inl (by rw [hbank]; rfl)
      duties := fun c => by rw [hosc]; exact Nat.le_refl _
      sampleWindow := by rw [hscur, hsend]
      sampleEnd := by rw [hsend]; exact Nat.zero_le _
      tempo := .inl htempo
      unbound := fun _ => hzero
      header := fun hb => by rw [hbound] at hb; cases hb
      faultSilent := fun _ => hout
      record := hrecord
      progress := .inl hidle }

theorem doInit_registersZero (s : State) : registersZero (doInit s) :=
  ⟨rfl, rfl, rfl, rfl, rfl, rfl, rfl, rfl, rfl, rfl, rfl, rfl⟩

theorem doInit_stateInv {s : State} (h : s.mem.wf = true) : StateInv (doInit s) :=
  stateInv_of_registersZero h (doInit_registersZero s) (.inl ⟨rfl, rfl, rfl, rfl⟩) ⟨rfl, rfl, rfl, rfl⟩

/-- PLAY binds the program, or refuses its length with all registers 0 (R132). -/
theorem doPlay_stateInv {s : State} (h : s.mem.wf = true) (image : List Byte) (len : Nat) (macros : BitVec 9) :
    StateInv (doPlay image len macros s) := by
  have hmem : (s.mem.load 0 image).wf = true := Memory.wf_load h 0 image
  unfold doPlay
  split
  · exact stateInv_of_registersZero hmem (doInit_registersZero { s with mem := s.mem.load 0 image })
      (.inr ⟨rfl, .progLen, rfl⟩) ⟨rfl, rfl, rfl, rfl⟩
  · next hlen =>
    refine RegistersLegal.stateInv_of_clear ⟨hmem, fun c => ?_, fun c => ?_, Nat.le_refl _, Nat.zero_le _,
      .inr (.inl rfl), fun _ => ?_⟩ rfl ⟨rfl, rfl, rfl, rfl⟩ (.inl ⟨rfl, rfl, rfl, rfl⟩)
    · simp [State.bank, playBank, Bank.legal, Bank.slotClean, Bank.octLegal, Bank.zero, doInit]
    · simp [State.osc, playOsc, Osc.dutyBelowPeriod, Osc.zero]
    · show 8 ≤ (BitVec.ofNat 16 len).toNat
      rw [BitVec.toNat_ofNat]
      omega

theorem perform_stateInv {s : State} (h : s.mem.wf = true) (k : Command) : StateInv (perform k s) := by
  cases k with
  | init => exact doInit_stateInv h
  | play image len macros => exact doPlay_stateInv h image len macros
  | stop => exact doInit_stateInv h

/-- The invariants do not speak of the strobes to come. -/
theorem StateInv.withSchedule {s : State} (h : StateInv s) (rest : List Strobe) :
    StateInv { s with schedule := rest } :=
  ⟨h.memory, h.slots, h.octaves, h.duties, h.sampleWindow, h.sampleEnd, h.tempo, h.unbound, h.header, h.faultSilent,
    h.record, h.progress⟩

theorem takeStrobe_stateInv {s : State} (h : StateInv s) (hidle : betweenSteps s) : StateInv (takeStrobe s) := by
  unfold takeStrobe
  split
  · exact startTick_stateInv h hidle
  · exact startTick_stateInv (h.withSchedule _) hidle
  · exact perform_stateInv (h.withSchedule _).memory _
  · exact perform_stateInv (h.withSchedule _).memory _
  · exact doInit_stateInv h.memory

/-! ### Inside a pass -/

/-- What holds of a pass while a command writes its registers: the invariants but for the count of administrative commands
and the length of the channel, which a sounding event sets before the channel is done with. -/
structure PassInv (s : State) : Prop where
  registers : RegistersLegal s
  clear : recordClear s
  inPass : s.inPass = true
  bound : s.bound = true
  output : s.comb = combined s

section
variable {s : State}

theorem StateInv.inThePass_of_inPass (h : StateInv s) (hp : s.inPass = true) : inThePass s :=
  h.progress.resolve_left fun ⟨hidle, _⟩ => by simp [hp] at hidle

theorem StateInv.passInv (h : StateInv s) (hp : s.inPass = true) : PassInv s := by
  obtain ⟨_, ⟨hbound, hfault⟩, _, _, hcomb⟩ := h.inThePass_of_inPass hp
  exact ⟨h.registers, h.clear_of_unfaulted hfault, hp, hbound, hcomb⟩

theorem PassInv.setHere (h : PassInv s) {b : Bank} (hb : b.legal s.cfg) : PassInv (s.setHere b) :=
  ⟨h.registers.setHere hb, h.clear, h.inPass, h.bound, h.output⟩

/-- Neither the cursor nor the length of a channel is under an invariant. -/
theorem PassInv.moveHere (h : PassInv s) (len : Byte) (cur : Word) :
    PassInv (s.setHere { s.here with len := len, cur := cur }) :=
  h.setHere (h.registers.banks s.chan)

theorem PassInv.setTempo (h : PassInv s) (op : Byte) : PassInv { s with tempoReload := tempoOf op } :=
  ⟨h.registers.setTempo op, h.clear, h.inPass, h.bound, h.output⟩

theorem PassInv.soundingPart (h : PassInv s) {i : Instr} {u : State} (hu : soundingPart i s u) : PassInv u := by
  rcases hu with rfl | ⟨hc, o, _, ho, rfl⟩ | ⟨_, p, _, hp, _, rfl⟩
  · exact h
  · exact ⟨h.registers.setOsc _ ho, h.clear, h.inPass, h.bound, h.output⟩
  · exact ⟨h.registers.sampleSelect p hp, h.clear, h.inPass, h.bound, h.output⟩

/-! ### The ends of a command -/

theorem raiseFault_stateInv (h : PassInv s) (cause : Cause) (x : Nat) : StateInv (raiseFault cause x s) := by
  have hlegal : RegistersLegal (raiseFault cause x s) :=
    h.registers.of_same ⟨rfl, rfl, rfl, rfl, rfl, rfl, rfl, rfl, rfl⟩
  exact hlegal.stateInv h.bound (fun _ => rfl) (.inr ⟨rfl, cause, rfl⟩) (.inl ⟨rfl, rfl, rfl, rfl⟩)

/-- The pass comes to the next channel with no command counted, or the TICK ends. -/
theorem endChannel_stateInv (h : PassInv s) : StateInv (endChannel s) := by
  have hlegal : RegistersLegal (endChannel s) := h.registers.of_same (by simp [sameRegisters])
  have hclear : recordClear (endChannel s) := by simpa [recordClear] using h.clear
  have hbound : (endChannel s).bound = true := by simpa using h.bound
  refine hlegal.stateInv_of_clear hbound hclear ?_
  rcases endChannel_cases s with ⟨_, hpass, _, hcomb, _⟩ | ⟨_, hidle, _⟩
  · exact .inr ⟨hpass.trans h.inPass, ⟨hbound, hclear.1⟩, by simp, by simp, by simpa [combined, hcomb] using h.output⟩
  · exact .inl hidle

/-- The fetch loop goes on below the fetch limit, on a channel that does not hold. -/
theorem continueAt_stateInv (h : PassInv s) (hcount : s.nAdmin < fetchLimit s.cfg) (hlen : s.here.len = 0#8) (w : Word) :
    StateInv (continueAt w s) := by
  have hlegal : RegistersLegal (continueAt w s) :=
    (h.moveHere s.here.len w).registers.of_same ⟨rfl, rfl, rfl, rfl, rfl, rfl, rfl, rfl, rfl⟩
  have hlen' : (continueAt w s).here.len = 0#8 := by
    show ((continueAt w s).bank s.chan).len = 0#8
    rw [bank_continueAt, if_pos rfl]
    exact hlen
  exact hlegal.stateInv_of_clear h.bound h.clear
    (.inr ⟨h.inPass, ⟨h.bound, h.clear.1⟩, hcount, fun _ => hlen', h.output⟩)

end

/-! ### Commands -/

theorem bank_continueAt_setHere (w : Word) (b : Bank) (s : State) :
    (continueAt w (s.setHere b)).bank s.chan = { b with cur := w } := by
  obtain ⟨_, _, hbank⟩ := continueAt_setHere w b s
  exact hbank

/-- An administrative command leaves its channel a legal bank: it writes the return slot whole, and a power of two into
`OCT`. -/
theorem exec_bank_legal {i : Instr} {s t : State} (hi : i.sounding = false) (hb : s.here.legal s.cfg)
    (h : exec i s = .next t) : (t.bank s.chan).legal s.cfg := by
  have moved : ∀ w b, b.legal s.cfg → ((continueAt w (s.setHere b)).bank s.chan).legal s.cfg := fun w b hb => by
    rw [bank_continueAt_setHere]; exact hb
  have stays : ∀ w, ((continueAt w s).bank s.chan).legal s.cfg := fun w => by
    rw [bank_continueAt, if_pos rfl]; exact hb
  cases i with
  | rest d => cases hi
  | note p d => cases hi
  | oct n => cases h; exact moved _ _ ⟨hb.1, .inr (.inr ⟨n, rfl⟩)⟩
  | vol v => cases h; exact moved _ _ hb
  | illegalVol x => cases h; exact hb
  | loops op =>
    simp only [exec, execLoops] at h
    split at h
    · cases h; exact hb
    · split at h
      · cases h; exact moved _ _ hb
      · cases h; exact hb
  | loope =>
    simp only [exec, execLoope] at h
    split at h
    · cases h; exact hb
    · split at h
      · cases h; exact moved _ _ hb
      · cases h; exact moved _ _ hb
  | call op =>
    simp only [exec, execCall] at h
    split at h
    · cases h; exact hb
    · split at h
      · cases h; exact hb
      · cases h; exact moved _ _ ⟨(fun hv => nomatch hv), hb.2⟩
  | tempo op => cases h; exact stays _
  | rsv4 op => cases h; exact stays _
  | rsv5 op => cases h; exact stays _
  | tie => cases h; exact stays _
  | illegalExt lo => cases h; exact hb
  | ret =>
    simp only [exec, execRet] at h
    split at h
    · cases h; exact moved _ _ ⟨fun _ => rfl, hb.2⟩
    · split at h
      · cases h; exact hb
      · cases h; exact stays _

/-- A command the fetch has let through the limit, on a channel that does not hold (R174). -/
theorem exec_stateInv {i : Instr} {s t : State} (h : PassInv s) (hlen : s.here.len = 0#8)
    (hcount : i.sounding = true ∨ s.nAdmin < fetchLimit s.cfg) (hexec : exec i s = .next t) : StateInv t := by
  obtain ⟨t', ht', hcases⟩ := exec_cases i s
  obtain rfl : t' = t := Host.Outcome.next.inj (ht'.symm.trans hexec)
  rcases hcases with ⟨hi, w, b, hblen, rfl⟩ | ⟨w, op, rfl, rfl⟩ | ⟨_, d, u, hu, rfl⟩ | ⟨cause, x, _, _, rfl⟩
  · have hb : b.legal s.cfg := by
      have hbank := exec_bank_legal hi (h.registers.banks s.chan) hexec
      rw [bank_continueAt_setHere] at hbank
      exact hbank
    have hadmin : s.nAdmin < fetchLimit s.cfg := hcount.resolve_left (by simp [hi])
    exact continueAt_stateInv (h.setHere hb) hadmin (by rw [State.here_setHere, hblen, hlen]) w
  · exact continueAt_stateInv (h.setTempo op) (hcount.resolve_left Bool.false_ne_true) hlen w
  · exact endChannel_stateInv ((h.soundingPart hu).moveHere _ _)
  · exact raiseFault_stateInv h cause x

/-- The fetch hands over an administrative command only while the count is not at the limit (R174, R175). -/
theorem fetch_command_count {s : State} {i : Instr} (h : fetch s = .command i) :
    i.sounding = true ∨ s.nAdmin ≠ fetchLimit s.cfg := by
  rcases fetch_cases s with ⟨_, e⟩ | ⟨_, hs, e⟩ | ⟨_, _, _, e⟩ | ⟨_, _, _, _, e⟩ | ⟨_, _, hn, _⟩ | ⟨_, _, hn, _⟩
  · rw [e] at h; cases h
  · rw [e] at h; cases h; exact .inl (by rw [decodeCommand_sounding, hs])
  · rw [e] at h; cases h
  · rw [e] at h; cases h
  · exact .inr hn
  · exact .inr hn

/-- A step of a pass holds the channel, or fetches and runs a command or faults. -/
theorem step_pass_stateInv {s t : State} (h : StateInv s) (hp : s.inPass = true) (hstep : step s = .next t) :
    StateInv t := by
  have hpass := h.passInv hp
  obtain ⟨_, _, hcount, hlen, _⟩ := h.inThePass_of_inPass hp
  by_cases hf : fetches s
  · have hlen : s.here.len = 0#8 := hf.2.elim hlen id
    rw [step_fetch hf] at hstep
    cases hfetch : fetch s with
    | command i =>
      rw [hfetch] at hstep
      exact exec_stateInv hpass hlen ((fetch_command_count hfetch).imp_right fun hn => by omega) hstep
    | raise cause x =>
      rw [hfetch] at hstep
      cases hstep
      exact raiseFault_stateInv hpass cause x
  · obtain ⟨hn, hl⟩ := holds_of_not_fetches hp hf
    rw [step_hold hp hn hl] at hstep
    cases hstep
    exact endChannel_stateInv (hpass.moveHere _ _)

/-! ### The obligations -/

/-- Settles O49: a strobe between the core's steps, or a step of a pass. -/
theorem everyStepKeepsInvariants : Obligations.EveryStepKeepsInvariants := by
  intro s t h hstep
  rcases h.progress with hidle | hpass
  · rw [step_strobe hidle.1] at hstep
    cases hstep
    exact takeStrobe_stateInv h hidle
  · exact step_pass_stateInv h hpass.1 hstep

/-- Settles O11: the reset state is what INIT makes of it. -/
theorem resetZeroesEveryRegister : Obligations.ResetZeroesEveryRegister :=
  ⟨doInit_registersZero State.reset, ⟨rfl, rfl, rfl, rfl⟩, ⟨rfl, rfl, rfl, rfl⟩⟩

/-- Settles O48: the reset state is what INIT makes of it. -/
theorem invariantsHoldAtReset : Obligations.InvariantsHoldAtReset :=
  doInit_stateInv (s := State.reset) Memory.wf_reset

end Sys2Proof.Machine

/-! Program memory (20_memory.md). A step of a pass and a TICK read it only; INIT, STOP and `RESET` leave it; PLAY loads what
the host has placed. -/

namespace Sys2Proof.Machine

/-! ### The environment under the host's commands -/

theorem doInit_memory (s : State) : (doInit s).cfg = s.cfg ∧ ∀ a, (doInit s).mem.read a = s.mem.read a :=
  ⟨rfl, fun _ => rfl⟩

/-- PLAY keeps the configuration and the strobes to come and loads the image, whether or not it accepts the length. -/
theorem doPlay_environment (image : List Byte) (len : Nat) (macros : BitVec 9) (s : State) :
    (doPlay image len macros s).cfg = s.cfg ∧ (doPlay image len macros s).mem = s.mem.load 0 image ∧
    (doPlay image len macros s).schedule = s.schedule := by
  unfold doPlay
  split <;> exact ⟨rfl, rfl, rfl⟩

/-- A host command keeps the configuration, and the bytes of memory unless it is a PLAY. -/
theorem perform_memory (k : Command) (s : State) :
    (perform k s).cfg = s.cfg ∧
    ((∀ a, (perform k s).mem.read a = s.mem.read a) ∨
      ∃ image len macros, k = .play image len macros ∧ (perform k s).mem = s.mem.load 0 image) := by
  cases k with
  | init => exact (doInit_memory s).imp_right .inl
  | play image len macros =>
    obtain ⟨hcfg, hmem, _⟩ := doPlay_environment image len macros s
    exact ⟨hcfg, .inr ⟨image, len, macros, rfl, hmem⟩⟩
  | stop => exact (doInit_memory s).imp_right .inl

theorem startTick_memory (s : State) :
    (startTick s).cfg = s.cfg ∧ ∀ a, (startTick s).mem.read a = s.mem.read a := by
  obtain ⟨_, _, _, _, _, _, _, _, _, _, hcfg, hmem, _⟩ := startTick_fields s
  exact ⟨hcfg, fun a => by rw [hmem]⟩

/-- A strobe keeps the configuration, and the bytes of memory unless it brings a PLAY. -/
theorem takeStrobe_memory (s : State) :
    (takeStrobe s).cfg = s.cfg ∧
    ((∀ a, (takeStrobe s).mem.read a = s.mem.read a) ∨
      ∃ image len macros rest,
        (s.schedule = .command (.play image len macros) :: rest ∨ s.schedule = .both (.play image len macros) :: rest) ∧
        (takeStrobe s).mem = s.mem.load 0 image) := by
  unfold takeStrobe
  split
  · exact (startTick_memory s).imp_right .inl
  · next rest _ => exact (startTick_memory { s with schedule := rest }).imp_right .inl
  · next k rest hs =>
    refine (perform_memory k { s with schedule := rest }).imp_right (Or.imp_right ?_)
    rintro ⟨image, len, macros, rfl, hmem⟩
    exact ⟨image, len, macros, rest, .inl hs, hmem⟩
  · next k rest hs =>
    refine (perform_memory k { s with schedule := .tick :: rest }).imp_right (Or.imp_right ?_)
    rintro ⟨image, len, macros, rfl, hmem⟩
    exact ⟨image, len, macros, rest, .inr hs, hmem⟩
  · next rest _ => exact (doInit_memory { s with schedule := rest }).imp_right .inl

/-! ### The obligations -/

/-- Settles O9: in a pass the environment stays, by the frame of every step of a pass; between the core's steps the step
takes a strobe. -/
theorem coreNeverWritesMemory : Obligations.CoreNeverWritesMemory := by
  intro s t hstep
  cases hp : s.inPass with
  | true =>
    obtain ⟨u, hu, ⟨⟨hcfg, hmem, _⟩, _⟩, _⟩ := step_pass_cases s hp
    rw [hu] at hstep
    cases hstep
    exact ⟨hcfg, .inl hmem⟩
  | false =>
    rw [step_strobe hp] at hstep
    cases hstep
    exact (takeStrobe_memory s).imp_right (Or.imp_right fun hplay => ⟨rfl, hplay⟩)

/-- Settles O10: a PLAY loads the image from offset 0 on, and a loaded sequence reads back. -/
theorem playPlacesProgram : Obligations.PlayPlacesProgram := by
  intro image len macros s a hm ha
  obtain ⟨_, hmem, _⟩ := doPlay_environment image len macros s
  rw [hmem, Memory.read_load hm 0 image ha, if_neg (Nat.not_lt_zero a), Nat.sub_zero]

/-- Settles O8: the range check decides each of the two reads, and the first comes first. -/
theorem memReadIsCheckedAndBigEndian : Obligations.MemReadIsCheckedAndBigEndian := fun s a =>
  ⟨memRead1_of_lt, fun h => ⟨memRead1_of_ge h, memRead2_of_ge h⟩, memRead2_of_eq,
    fun h => ⟨s.mem.word a, memRead2_of_lt h, Memory.word_toNat s.mem a⟩⟩

end Sys2Proof.Machine

/-! The encoding (30_encoding.md). Each arm of R103 says what the decoder makes of a first byte put together from its
nibbles. Decoding an encoding is one arm per command; and since every first byte begins the encoding of a well-formed
command, encoding what was decoded follows from it. -/

namespace Sys2Proof

/-! ### The nibbles of a byte -/

@[simp] theorem hiNibble_append (hi lo : Nibble) : hiNibble (hi ++ lo) = hi := BitVec.extractLsb'_append_eq_left

@[simp] theorem loNibble_append (hi lo : Nibble) : loNibble (hi ++ lo) = lo := BitVec.extractLsb'_append_eq_right

theorem hiNibble_append_loNibble (b : Byte) : hiNibble b ++ loNibble b = b := by
  have hjoin : b.extractLsb' 4 4 ++ b.extractLsb' 0 4 = b.extractLsb' 0 8 :=
    BitVec.extractLsb'_append_extractLsb'_eq_extractLsb' rfl
  exact hjoin.trans BitVec.extractLsb'_eq_self

theorem volNibble_toNat (v : BitVec 3) : (0#1 ++ v : Nibble).toNat = v.toNat := by
  revert v; decide

theorem illegalVolNibble_toNat (x : BitVec 3) : (1#1 ++ x : Nibble).toNat = 8 + x.toNat := by
  revert x; decide

/-- The high nibble of a note is not that of the extended commands. -/
theorem noteNibble_ne (p : NoteIndex) : BitVec.ofNat 4 p.val ≠ 15#4 := by
  revert p; decide

/-- A low nibble is `0vvv` or `1vvv`, which tells a volume from an illegal one (R104). -/
theorem nibble_eq_append (lo : Nibble) : ∃ v : BitVec 3, lo = (0#1 ++ v : Nibble) ∨ lo = (1#1 ++ v : Nibble) := by
  revert lo; decide

/-- The arms of R103 on the high nibble. -/
theorem hi_cases (hi : Nibble) :
    hi = 0#4 ∨ (∃ p : NoteIndex, 1 ≤ p.val ∧ hi = BitVec.ofNat 4 p.val) ∨ hi = 13#4 ∨ hi = 14#4 ∨ hi = 15#4 := by
  revert hi; decide

/-! ### The operand byte -/

theorem takesOperand_iff (b : Byte) :
    takesOperand b = true ↔ b = 0xF0#8 ∨ b = 0xF2#8 ∨ b = 0xF3#8 ∨ b = 0xF4#8 ∨ b = 0xF5#8 := by
  simp [takesOperand, or_assoc]

/-- Only an extended command takes an operand (R101). -/
theorem takesOperand_append_of_ne {hi : Nibble} (h : hi ≠ 15#4) (lo : Nibble) : takesOperand (hi ++ lo) = false := by
  rw [← Bool.not_eq_true, takesOperand_iff]
  intro hb
  have h15 : hiNibble (hi ++ lo) = 15#4 := by
    rcases hb with hb | hb | hb | hb | hb <;> rw [hb] <;> rfl
  exact h ((hiNibble_append hi lo).symm.trans h15)

/-! ### The arms of R103 -/

section
variable (lo : Nibble) (op : Byte)

theorem decodeCommand_rest : decodeCommand (0#4 ++ lo) op = .rest lo := by simp [decodeCommand]

theorem decodeCommand_note {p : NoteIndex} (h : 1 ≤ p.val) :
    decodeCommand (BitVec.ofNat 4 p.val ++ lo) op = .note p lo := by
  have hp : (BitVec.ofNat 4 p.val).toNat = p.val := by rw [BitVec.toNat_ofNat]; omega
  have h0 : BitVec.ofNat 4 p.val ≠ 0#4 := by bv_omega
  have h12 : p.val ≤ 12 := by omega
  simp [decodeCommand, h0, hp, h12]

theorem decodeCommand_oct : decodeCommand (13#4 ++ lo) op = .oct lo := by simp [decodeCommand]

theorem decodeCommand_vol {v : BitVec 3} (h : lo.toNat = v.toNat) : decodeCommand (14#4 ++ lo) op = .vol v := by
  have h7 : lo.toNat ≤ 7 := by omega
  have hv : lo.setWidth 3 = v := by bv_omega
  simp [decodeCommand, h7, hv]

theorem decodeCommand_illegalVol {x : BitVec 3} (h : lo.toNat = 8 + x.toNat) :
    decodeCommand (14#4 ++ lo) op = .illegalVol x := by
  have h7 : ¬ lo.toNat ≤ 7 := by omega
  have hx : lo.setWidth 3 = x := by bv_omega
  simp [decodeCommand, h7, hx]

theorem decodeCommand_extended : decodeCommand (15#4 ++ lo) op = decodeExtended lo op := by simp [decodeCommand]

/-- The extended commands by the value of the low nibble (R105), as a chain of tests. -/
theorem decodeExtended_eq :
    decodeExtended lo op =
      if lo = 0#4 then .loops op else if lo = 1#4 then .loope else if lo = 2#4 then .call op
      else if lo = 3#4 then .tempo op else if lo = 4#4 then .rsv4 op else if lo = 5#4 then .rsv5 op
      else if lo = 6#4 then .tie else if lo = 15#4 then .ret else .illegalExt lo := by
  revert lo
  refine nibble_cases fun k => ?_
  fin_cases k <;> rfl

/-- What an extended byte decodes to is well-formed, and it is encoded as that byte, with the operand if there is one. -/
theorem decodeExtended_encode :
    (decodeExtended lo op).wellFormed = true ∧
    encode (decodeExtended lo op) = (15#4 ++ lo) :: if takesOperand (15#4 ++ lo) then [op] else [] := by
  revert lo
  refine nibble_cases fun k => ?_
  fin_cases k <;> exact ⟨rfl, rfl⟩

end

/-! ### The bytes of a command -/

/-- `1110_0vvv` (R104) has the high nibble 14 and the low nibble `0vvv`. -/
theorem encode_vol (v : BitVec 3) : encode (.vol v) = [14#4 ++ (0#1 ++ v : Nibble)] := by
  revert v; decide

/-- `1110_1xxx` (R104) has the high nibble 14 and the low nibble `1xxx`. -/
theorem encode_illegalVol (x : BitVec 3) : encode (.illegalVol x) = [14#4 ++ (1#1 ++ x : Nibble)] := by
  revert x; decide

theorem encode_length (i : Instr) : (encode i).length = i.length := by cases i <;> rfl

theorem decode_of_operand {b : Byte} (h : takesOperand b = true) (op : Byte) (rest : List Byte) :
    decode (b :: op :: rest) = .ok (decodeCommand b op, rest) := by simp [decode, h]

theorem decode_of_no_operand {b : Byte} (h : takesOperand b = false) (rest : List Byte) :
    decode (b :: rest) = .ok (decodeCommand b 0#8, rest) := by simp [decode, h]

/-- A first byte outside the extended commands is a whole command. -/
theorem decode_append_of_ne {hi lo : Nibble} {i : Instr} (h : hi ≠ 15#4) (hd : decodeCommand (hi ++ lo) 0#8 = i)
    (rest : List Byte) : decode ((hi ++ lo) :: rest) = .ok (i, rest) := by
  rw [decode_of_no_operand (takesOperand_append_of_ne h lo), hd]

/-- A command of one byte outside the extended commands is encoded as that byte, with no operand. -/
theorem encode_append_of_ne {hi lo : Nibble} {i : Instr} (h : hi ≠ 15#4) (he : encode i = [hi ++ lo]) (op : Byte) :
    encode i = (hi ++ lo) :: if takesOperand (hi ++ lo) then [op] else [] := by
  simp [he, takesOperand_append_of_ne h]

/-- The first bytes `0xF7`..`0xFE` are one byte each (log entry 11). -/
theorem decode_illegalExt {lo : Nibble} (h : (Instr.illegalExt lo).wellFormed = true) (rest : List Byte) :
    decode ((15#4 ++ lo) :: rest) = .ok (.illegalExt lo, rest) := by
  have hlo : takesOperand (15#4 ++ lo) = false ∧ decodeExtended lo 0#8 = .illegalExt lo := by
    revert lo; decide
  rw [decode_of_no_operand hlo.1, decodeCommand_extended, hlo.2]

/-- What was decoded is one byte, or two if the first takes an operand. -/
theorem bytes_of_decode {bs : List Byte} {i : Instr} {rest : List Byte} (h : decode bs = .ok (i, rest)) :
    ∃ b op, bs = (b :: if takesOperand b then [op] else []) ++ rest := by
  match bs with
  | [] => cases h
  | b :: tail =>
    cases ht : takesOperand b with
    | false =>
      rw [decode_of_no_operand ht] at h
      cases h
      exact ⟨b, 0#8, by simp [ht]⟩
    | true =>
      match tail with
      | [] => simp [decode, ht] at h
      | op :: rest' =>
        rw [decode_of_operand ht] at h
        cases h
        exact ⟨b, op, by simp [ht]⟩

/-- Every first byte, with an operand after it if it takes one, is the encoding of a well-formed command (R103). -/
theorem exists_encode_eq (b op : Byte) :
    ∃ i : Instr, i.wellFormed = true ∧ encode i = b :: if takesOperand b then [op] else [] := by
  rw [← hiNibble_append_loNibble b]
  generalize hiNibble b = hi, loNibble b = lo
  rcases hi_cases hi with rfl | ⟨p, hp, rfl⟩ | rfl | rfl | rfl
  · exact ⟨.rest lo, rfl, encode_append_of_ne (by decide) rfl op⟩
  · exact ⟨.note p lo, decide_eq_true hp, encode_append_of_ne (noteNibble_ne p) rfl op⟩
  · exact ⟨.oct lo, rfl, encode_append_of_ne (by decide) rfl op⟩
  · obtain ⟨v, rfl | rfl⟩ := nibble_eq_append lo
    · exact ⟨.vol v, rfl, encode_append_of_ne (by decide) (encode_vol v) op⟩
    · exact ⟨.illegalVol v, rfl, encode_append_of_ne (by decide) (encode_illegalVol v) op⟩
  · exact ⟨decodeExtended lo op, decodeExtended_encode lo op⟩

/-! ### The obligations -/

/-- Settles O1: one arm of the decode procedure per command. -/
theorem decodeInvertsEncode : Obligations.DecodeInvertsEncode := by
  intro i rest hw
  cases i with
  | rest d => exact decode_append_of_ne (by decide) (decodeCommand_rest d _) rest
  | note p d =>
    have hp : 1 ≤ p.val := of_decide_eq_true hw
    exact decode_append_of_ne (noteNibble_ne p) (decodeCommand_note d _ hp) rest
  | oct n => exact decode_append_of_ne (by decide) (decodeCommand_oct n _) rest
  | vol v =>
    rw [encode_vol]
    exact decode_append_of_ne (by decide) (decodeCommand_vol _ _ (volNibble_toNat v)) rest
  | illegalVol x =>
    rw [encode_illegalVol]
    exact decode_append_of_ne (by decide) (decodeCommand_illegalVol _ _ (illegalVolNibble_toNat x)) rest
  | loops op => exact decode_of_operand rfl op rest
  | loope => exact decode_of_no_operand rfl rest
  | call op => exact decode_of_operand rfl op rest
  | tempo op => exact decode_of_operand rfl op rest
  | rsv4 op => exact decode_of_operand rfl op rest
  | rsv5 op => exact decode_of_operand rfl op rest
  | tie => exact decode_of_no_operand rfl rest
  | illegalExt lo => exact decode_illegalExt hw rest
  | ret => exact decode_of_no_operand rfl rest

/-- Settles O2: the bytes read are the encoding of some well-formed command, and decoding gives that command back. -/
theorem encodeInvertsDecode : Obligations.EncodeInvertsDecode := by
  intro bs i rest h
  obtain ⟨b, op, rfl⟩ := bytes_of_decode h
  obtain ⟨j, hw, hj⟩ := exists_encode_eq b op
  rw [← hj, decodeInvertsEncode j rest hw] at h
  cases h
  exact ⟨hw, encode_length i, by rw [hj]⟩

/-- Settles O3: the arms of the decode procedure. -/
theorem decodeProcedureArms : Obligations.DecodeProcedureArms := by
  intro hi lo op
  refine ⟨?rest, ?note, ?oct, ?vol, ?illegalVol, ?extended⟩
  case rest => rintro rfl; exact decodeCommand_rest lo op
  case note =>
    intro p hp hhi
    obtain rfl : hi = BitVec.ofNat 4 p.val := by rw [← hhi, BitVec.ofNat_toNat, BitVec.setWidth_eq]
    exact decodeCommand_note lo op hp
  case oct => rintro rfl; exact decodeCommand_oct lo op
  case vol => rintro v rfl hv; exact decodeCommand_vol lo op hv
  case illegalVol => rintro x rfl hx; exact decodeCommand_illegalVol lo op hx
  case extended => rintro rfl; exact (decodeCommand_extended lo op).trans (decodeExtended_eq lo op)

/-- Settles O5: the commands of two bytes are those that take an operand. -/
theorem lengthFromFirstByte : Obligations.LengthFromFirstByte := by
  intro b op
  simp only [decodeCommand_length, takesOperand_iff]

end Sys2Proof

/-! The reserved commands (43_extended_commands.md section 4). -/

namespace Sys2Proof.Machine

/-- What a reserved command does: it moves the cursor past both bytes and writes nothing else (R108). -/
theorem skipTwo_goesOn (s : State) :
    commandFrame s (skipTwo s) ∧ loopGoesOn s (skipTwo s) ∧
    (skipTwo s).bank s.chan = { s.here with cur := s.here.cur + 2 } ∧
    (∀ c, (skipTwo s).osc c = s.osc c) ∧ sameWindow s (skipTwo s) ∧ (skipTwo s).tempoReload = s.tempoReload := by
  obtain ⟨frame, goesOn, bank⟩ := continueAt_goesOn (s.here.cur + 2) s
  exact ⟨frame, goesOn, bank, fun _ => rfl, ⟨rfl, rfl⟩, rfl⟩

/-- Settles O41: both commands are `skipTwo`, whatever the operand. -/
theorem reservedCommandsSkipTwoBytes : Obligations.ReservedCommandsSkipTwoBytes := by
  rintro i op s (rfl | rfl) <;> exact ⟨skipTwo s, rfl, skipTwo_goesOn s⟩

end Sys2Proof.Machine

/-! The host commands and the TICK (40_control_commands.md). A host command ends between the core's steps with the strobes
to come as they are; a step of a pass keeps those strobes, and keeps the output unless it ends the TICK. -/

namespace Sys2Proof.Machine

/-! ### Host commands -/

theorem doInit_recordClear (s : State) : recordClear (doInit s) := ⟨rfl, rfl, rfl, rfl⟩

theorem doInit_betweenSteps (s : State) : betweenSteps (doInit s) := ⟨rfl, rfl, rfl, rfl⟩

/-- STOP and `RESET` are INIT (R133, R280). -/
theorem takeStrobe_eq_doInit {s : State} {rest : List Strobe}
    (h : s.schedule = .command .init :: rest ∨ s.schedule = .command .stop :: rest ∨ s.schedule = .reset :: rest) :
    takeStrobe s = doInit { s with schedule := rest } := by
  rcases h with h | h | h <;> rw [takeStrobe, h] <;> rfl

theorem perform_inPass (k : Command) (s : State) : (perform k s).inPass = false := by
  cases k with
  | init => rfl
  | play image len macros => exact doPlay_inPass image len macros s
  | stop => rfl

theorem perform_schedule (k : Command) (s : State) : (perform k s).schedule = s.schedule := by
  cases k with
  | init => rfl
  | play image len macros =>
    obtain ⟨_, _, hsch⟩ := doPlay_environment image len macros s
    exact hsch
  | stop => rfl

/-- A simultaneous pair is its command with the TICK left as the next strobe (R136). -/
theorem takeStrobe_both {s : State} {k : Command} {rest : List Strobe} (h : s.schedule = .both k :: rest) :
    takeStrobe s = perform k { s with schedule := .tick :: rest } := by
  rw [takeStrobe, h]

/-! ### A TICK that does nothing -/

theorem startTick_of_not_live {s : State} (h : ¬ live s) : startTick s = s := if_neg h

theorem not_live_of_idle_or_halted {s : State} (h : s.bound = false ∨ s.fault = true) : ¬ live s := by
  rintro ⟨hbound, hfault⟩
  rcases h with h | h
  · simp [hbound] at h
  · simp [hfault] at h

/-! ### The output while a TICK is in progress -/

/-- The tempo step writes `OUT` only when it ends the TICK (R170). -/
theorem tempoStep_out_of_inPass {b : Bool} {s : State} (hs : s.inPass = false) (h : (tempoStep b s).inPass = true) :
    (tempoStep b s).out = s.out := by
  unfold tempoStep at h ⊢
  split at h
  · next helapsed => rw [if_pos helapsed]
  · exact absurd (hs.symm.trans h) Bool.false_ne_true

theorem startTick_out_of_inPass {s : State} (hs : s.inPass = false) (h : (startTick s).inPass = true) :
    (startTick s).out = s.out := by
  by_cases hlive : live s
  · have fields := synthStage_fields s
    rw [startTick, if_pos hlive] at h ⊢
    rw [tempoStep_out_of_inPass (by simpa only [fields] using hs) h]
    simp only [fields]
  · rw [startTick_of_not_live hlive]

/-- A strobe after which a TICK is in progress is that TICK's: a host command begins none. -/
theorem takeStrobe_out_of_inPass {s : State} (hs : s.inPass = false) (h : (takeStrobe s).inPass = true) :
    (takeStrobe s).out = s.out := by
  unfold takeStrobe at h ⊢
  split at h
  · exact startTick_out_of_inPass hs h
  · next rest _ => exact startTick_out_of_inPass (s := { s with schedule := rest }) hs h
  · exact absurd h (by simp [perform_inPass])
  · exact absurd h (by simp [perform_inPass])
  · exact absurd h (by simp [doReset, (doInit_betweenSteps _).1])

theorem not_inPass_of_betweenSteps {t : State} (h : betweenSteps t) : t.inPass ≠ true := by
  rw [h.1]
  exact Bool.false_ne_true

/-- A channel done with changes the output only when it is the last, and then the TICK has ended (R134). -/
theorem channelDone.out_of_inPass {s t : State} (h : channelDone s t) (hp : t.inPass = true) : t.out = s.out := by
  obtain ⟨_, h⟩ := h
  split at h
  · obtain ⟨_, _, _, _, hout⟩ := h
    exact hout
  · exact absurd hp (not_inPass_of_betweenSteps h.1)

/-- A step of a pass keeps the output as long as the pass is not over; a fault, which lowers it, ends the pass (R253). -/
theorem step_pass_out_of_inPass {s t : State} (hp : s.inPass = true) (hstep : step s = .next t) (ht : t.inPass = true) :
    t.out = s.out := by
  obtain ⟨u, hu, _, hcases⟩ := step_pass_cases s hp
  obtain rfl : u = t := Host.Outcome.next.inj (hu.symm.trans hstep)
  rcases hcases with ⟨_, ⟨_, _, _, _, hout, _⟩, _⟩ | hdone | ⟨_, _, _, _, ⟨_, _, _, _, _, hidle, _⟩⟩
  · exact hout
  · exact hdone.out_of_inPass ht
  · exact absurd ht (not_inPass_of_betweenSteps hidle)

/-! ### The obligations -/

/-- Settles O15: the strobes to come are in the frame of every step of a pass. -/
theorem strobesWaitForTheTickToEnd : Obligations.StrobesWaitForTheTickToEnd := by
  intro s t hp hstep
  obtain ⟨u, hu, ⟨⟨_, _, hsch⟩, _⟩, _⟩ := step_pass_cases s hp
  obtain rfl : u = t := Host.Outcome.next.inj (hu.symm.trans hstep)
  exact hsch

/-- Settles O16: a strobe that leaves a pass in progress has only begun it, and a step of a pass that writes the output ends
it. -/
theorem outputHoldsWhileATickIsInProgress : Obligations.OutputHoldsWhileATickIsInProgress := by
  intro s t hstep ht
  cases hp : s.inPass with
  | true => exact step_pass_out_of_inPass hp hstep ht
  | false =>
    rw [step_strobe hp] at hstep
    cases hstep
    exact takeStrobe_out_of_inPass hp ht

/-- Settles O12: each of the three strobes is INIT. -/
theorem initStopAndResetZeroEverything : Obligations.InitStopAndResetZeroEverything := by
  intro s rest hp hs
  refine ⟨doInit { s with schedule := rest }, ?_, doInit_registersZero _, doInit_recordClear _, doInit_betweenSteps _,
    rfl, rfl, rfl⟩
  rw [step_strobe hp, takeStrobe_eq_doInit hs]

/-- Settles O14: the pair performs its command over the strobes that the command followed by a TICK leaves. -/
theorem commandGoesBeforeSimultaneousTick : Obligations.CommandGoesBeforeSimultaneousTick := by
  intro s k rest hp hs
  refine ⟨perform k { s with schedule := .tick :: rest }, ?_, ?_, perform_inPass _ _, .inr ⟨rest, perform_schedule _ _⟩⟩
  · rw [step_strobe hp, takeStrobe_both hs]
  · exact step_strobe (s := { s with schedule := .command k :: .tick :: rest }) hp

/-- Settles O17: the TICK finds the core not live. -/
theorem idleAndHaltedTicksDoNothing : Obligations.IdleAndHaltedTicksDoNothing := by
  intro s htick hs
  have hlive : ¬ live { s with schedule := s.schedule.tail } := not_live_of_idle_or_halted hs
  rw [step_tick htick, startTick_of_not_live hlive]

end Sys2Proof.Machine

/-! The synthesizer stage (41_synthesizer.md). A TICK of a bound, unfaulted core writes the sample registers as SampleStep
does and each oscillator as PulseStep does; the tempo step after them writes none of these. -/

namespace Sys2Proof.Machine

/-! ### SampleStep, register by register (R151) -/

theorem sampleStep_sdiv (s : State) :
    (sampleStep s).sdiv = if prescalerFires s then s.cfg.sampleDiv else s.sdiv - 1 := by
  unfold sampleStep
  split
  · split <;> rfl
  · rfl

theorem sampleStep_scur (s : State) :
    (sampleStep s).scur =
      if prescalerFires s then (if samplePlaying s then s.scur + 1 else s.scur) else s.scur := by
  unfold sampleStep
  split
  · split <;> rfl
  · rfl

theorem sampleStep_outBit (s : State) :
    (sampleStep s).outBit 3 =
      if prescalerFires s then (if samplePlaying s then sampleBit s.cfg s.scur.toNat else false) else s.outBit 3 := by
  unfold sampleStep
  split
  · split <;> exact State.outBit_setOutBit_self s 3 _
  · rfl

/-! ### The phase (R153) -/

/-- The exact sum with one subtraction is a remainder when the multiplier does not exceed the period (R153, corner
case 1). -/
theorem phaseAfter_toNat_of_le {phase oct period : Word} (hphase : phase.toNat < period.toNat)
    (hoct : oct.toNat ≤ period.toNat) :
    (phaseAfter phase oct period).toNat = (phase.toNat + oct.toNat) % period.toNat := by
  have hperiod := period.isLt
  rw [phaseAfter, BitVec.toNat_ofNat]
  split
  · next hwrap =>
    have hlt : phase.toNat + oct.toNat - period.toNat < period.toNat := by omega
    rw [Nat.mod_eq_sub_mod hwrap, Nat.mod_eq_of_lt hlt, Nat.mod_eq_of_lt (hlt.trans hperiod)]
  · next hbelow =>
    have hlt : phase.toNat + oct.toNat < period.toNat := Nat.lt_of_not_le hbelow
    rw [Nat.mod_eq_of_lt hlt, Nat.mod_eq_of_lt (hlt.trans hperiod)]

/-! ### The whole TICK -/

/-- `t` has the sample channel of `s`: the prescaler, the window and the output bit. -/
def sameSampleChannel (s t : State) : Prop :=
  t.sdiv = s.sdiv ∧ t.scur = s.scur ∧ t.send = s.send ∧ t.outBit 3 = s.outBit 3

section
variable {s : State}

theorem startTick_of_live (h : live s) : startTick s = tempoStep (combined (synthStage s)) (synthStage s) := if_pos h

/-- The sample channel after a TICK is as SampleStep leaves it. -/
theorem startTick_sample (h : live s) : sameSampleChannel (sampleStep s) (startTick s) := by
  obtain ⟨_, _, hchout, hsdiv, hscur, _⟩ := tempoStep_fields (combined (synthStage s)) (synthStage s)
  obtain ⟨hsdiv₁, hscur₁, hout₁⟩ := synthStage_sample s
  obtain ⟨_, hsend, _⟩ := startTick_fields s
  obtain ⟨_, _, hsend₁, _⟩ := sampleStep_fields s
  rw [startTick_of_live h] at hsend ⊢
  refine ⟨hsdiv.trans hsdiv₁, hscur.trans hscur₁, hsend.trans hsend₁.symm, ?_⟩
  rw [State.outBit, hchout]
  exact hout₁

/-- An oscillator after a TICK has its phase advanced, and its output is the comparator on that phase (R153, R154). -/
theorem startTick_pulse (h : live s) (c : Pulse) :
    (startTick s).osc c = advancePhase (s.bank (chanOf c)).oct (s.osc c) ∧
    (startTick s).outBit (chanOf c) = decide (dutyHigh (advancePhase (s.bank (chanOf c)).oct (s.osc c))) := by
  obtain ⟨_, hoscs, hchout, _⟩ := tempoStep_fields (combined (synthStage s)) (synthStage s)
  rw [startTick_of_live h, State.osc, State.outBit, hoscs, hchout]
  exact synthStage_pulse s c

end

/-! ### The sample channel and the tempo registers (R156) -/

/-- SampleStep reads the sample channel and the configuration alone (R151). -/
theorem sampleStep_sameSampleChannel {s s' : State} (h : sameSampleChannel s s') (hcfg : s'.cfg = s.cfg) :
    sameSampleChannel (sampleStep s) (sampleStep s') := by
  obtain ⟨hsdiv, hscur, hsend, hout⟩ := h
  obtain ⟨_, _, hsend₁, _⟩ := sampleStep_fields s
  obtain ⟨_, _, hsend₂, _⟩ := sampleStep_fields s'
  refine ⟨?_, ?_, by rw [hsend₁, hsend₂, hsend], ?_⟩
  · simp only [sampleStep_sdiv, prescalerFires, hsdiv, hcfg]
  · simp only [sampleStep_scur, prescalerFires, samplePlaying, hsdiv, hscur, hsend]
  · simp only [sampleStep_outBit, prescalerFires, samplePlaying, hsdiv, hscur, hsend, hout, hcfg]

/-- What a TICK does to the sample channel depends on that channel, the configuration and whether the core is live: not on
the tempo registers (R156). -/
theorem startTick_sameSampleChannel {s s' : State} (h : sameSampleChannel s s') (hcfg : s'.cfg = s.cfg)
    (hlive : live s' ↔ live s) : sameSampleChannel (startTick s) (startTick s') := by
  by_cases hl : live s
  · obtain ⟨hsdiv, hscur, hsend, hout⟩ := startTick_sample hl
    obtain ⟨hsdiv', hscur', hsend', hout'⟩ := startTick_sample (hlive.mpr hl)
    rw [sameSampleChannel, hsdiv, hscur, hsend, hout, hsdiv', hscur', hsend', hout']
    exact sampleStep_sameSampleChannel h hcfg
  · rwa [startTick_of_not_live hl, startTick_of_not_live (hlive.not.mpr hl)]

/-! ### The obligations -/

/-- Settles O18: the registers of SampleStep, in its three cases. -/
theorem sampleStepOfATick : Obligations.SampleStepOfATick := by
  intro s htick hlive
  obtain ⟨hsdiv, hscur, _, hout⟩ := startTick_sample (s := { s with schedule := s.schedule.tail }) hlive
  obtain ⟨_, hsend, _⟩ := startTick_fields { s with schedule := s.schedule.tail }
  rw [sampleStep_sdiv] at hsdiv
  rw [sampleStep_scur] at hscur
  rw [sampleStep_outBit] at hout
  refine ⟨_, step_tick htick, hsend, fun hfire => ?_, fun hfire hplay => ⟨?_, ?_⟩, fun hfire hended => ⟨?_, ?_⟩,
    fun hwait => ⟨?_, ?_, ?_⟩⟩
  · rw [hsdiv, if_pos hfire]
  · rw [hout, if_pos hfire, if_pos hplay]
  · rw [hscur, if_pos hfire, if_pos hplay]
    have hbound := s.send.isLt
    exact BitVec.toNat_add_of_lt (by simpa using by omega)
  · rw [hout, if_pos hfire, if_neg (Nat.not_lt.mpr hended)]
  · rw [hscur, if_pos hfire, if_neg (Nat.not_lt.mpr hended)]
  · rw [hsdiv, if_neg hwait]
    show (s.sdiv - 1).toNat + 1 = s.sdiv.toNat
    bv_omega
  · rw [hout, if_neg hwait]; rfl
  · rw [hscur, if_neg hwait]

/-- Settles O19: the phase and the comparator of each oscillator; the advance writes the phase alone. -/
theorem pulseStepsOfATick : Obligations.PulseStepsOfATick := by
  intro s htick hlive
  refine ⟨_, step_tick htick, fun c => ?_⟩
  obtain ⟨hosc, hout⟩ := startTick_pulse (s := { s with schedule := s.schedule.tail }) hlive c
  rw [hosc, hout]
  exact ⟨rfl, rfl, BitVec.toNat_ofNat _ _, decide_eq_true_iff⟩

/-- Settles O20: under the two preconditions the advance is a remainder by the period, which the TICK keeps. -/
theorem phaseTurnsModuloThePeriod : Obligations.PhaseTurnsModuloThePeriod := by
  intro s c htick hlive hphase hoct
  have hturn := phaseAfter_toNat_of_le hphase hoct
  obtain ⟨hosc, _⟩ := startTick_pulse (s := { s with schedule := s.schedule.tail }) hlive c
  refine ⟨_, step_tick htick, ?_⟩
  rw [hosc]
  exact ⟨hturn ▸ Nat.mod_lt _ (Nat.zero_lt_of_lt hphase), hturn⟩

/-- Settles O21: the tempo registers are not among what a TICK reads for the sample channel, and `SDIV` and the output bits
are in the frame of every step of a pass. -/
theorem sampleCadenceIgnoresTempo : Obligations.SampleCadenceIgnoresTempo := by
  constructor
  · intro s t t' cnt reload htick hstep hstep'
    rw [step_tick htick] at hstep
    rw [step_tick (s := { s with tempoCnt := cnt, tempoReload := reload }) htick] at hstep'
    cases hstep
    cases hstep'
    exact startTick_sameSampleChannel ⟨rfl, rfl, rfl, rfl⟩ rfl Iff.rfl
  · intro s t hp hstep
    obtain ⟨u, hu, ⟨_, _, ⟨hchout, hsdiv, _⟩, _⟩, _⟩ := step_pass_cases s hp
    obtain rfl : u = t := Host.Outcome.next.inj (hu.symm.trans hstep)
    exact ⟨hsdiv, fun c => by rw [State.outBit, hchout, State.outBit]⟩

end Sys2Proof.Machine

/-! The sequencer stage (42_sequencer_dispatch.md). A TICK counts down, or begins a pass at channel 0. Each step of a pass goes
on with its channel's fetch loop, comes to the next channel, or ends the TICK, and `passStepsLeft` falls with every one of
them; so a pass ends, and on its way it comes to every channel unless a lower one faults. What a pass does to a channel it
does while it is at that channel: this gives the hold law. -/

namespace Sys2Proof.Machine

/-! ### The tempo countdown (R170) -/

section
variable {s : State}

theorem combined_congr {t : State} (h : t.chout = s.chout) : combined t = combined s := by
  simp only [combined, State.outBit, h]

theorem combined_startTick (h : live s) : combined (startTick s) = combined (synthStage s) := by
  obtain ⟨_, _, hchout, _⟩ := tempoStep_fields (combined (synthStage s)) (synthStage s)
  rw [startTick_of_live h]
  exact combined_congr hchout

/-- A TICK that finds the countdown at 0 reloads it and begins a pass with channel 0; O waits. -/
theorem startTick_of_elapsed (h : live s) (he : tempoElapsed s) :
    (startTick s).tempoCnt = s.tempoReload ∧ (startTick s).inPass = true ∧ (startTick s).chan = 0 ∧
    (startTick s).nAdmin = 0 ∧ (startTick s).out = s.out ∧ (startTick s).comb = combined (startTick s) := by
  have fields := synthStage_fields s
  have he' : tempoElapsed (synthStage s) := by simpa only [tempoElapsed, fields] using he
  rw [combined_startTick h, startTick_of_live h, tempoStep, if_pos he']
  simp only [fields, and_self]

/-- Any other TICK of a live core counts down and ends. -/
theorem startTick_of_not_elapsed (h : live s) (he : ¬ tempoElapsed s) :
    (startTick s).tempoCnt = s.tempoCnt - 1 ∧ (startTick s).inPass = s.inPass ∧
    (startTick s).out = combined (startTick s) := by
  have fields := synthStage_fields s
  have he' : ¬ tempoElapsed (synthStage s) := by simpa only [tempoElapsed, fields] using he
  rw [combined_startTick h, startTick_of_live h, tempoStep, if_neg he']
  simp only [fields, and_self]

/-- A TICK that begins a pass begins it at channel 0 with no command counted. -/
theorem startTick_begins (hp : s.inPass = false) (h : (startTick s).inPass = true) :
    (startTick s).chan = 0 ∧ (startTick s).nAdmin = 0 := by
  by_cases hlive : live s
  · by_cases he : tempoElapsed s
    · obtain ⟨_, _, hchan, hcount, _⟩ := startTick_of_elapsed hlive he
      exact ⟨hchan, hcount⟩
    · obtain ⟨_, hpass, _⟩ := startTick_of_not_elapsed hlive he
      simp [hpass, hp] at h
  · simp [startTick_of_not_live hlive, hp] at h

/-- A host command begins no pass. -/
theorem takeStrobe_begins (hp : s.inPass = false) (h : (takeStrobe s).inPass = true) :
    (takeStrobe s).chan = 0 ∧ (takeStrobe s).nAdmin = 0 := by
  unfold takeStrobe at h ⊢
  split at h
  · exact startTick_begins hp h
  · next rest _ => exact startTick_begins (s := { s with schedule := rest }) hp h
  · exact absurd h (by simp [perform_inPass])
  · exact absurd h (by simp [perform_inPass])
  · exact absurd h (by simp [doReset, (doInit_betweenSteps _).1])

end

/-- Settles O22: the TICK's two cases, and the fields it leaves. -/
theorem tempoCountdownOfATick : Obligations.TempoCountdownOfATick := by
  intro s htick hlive
  have hlive' : live { s with schedule := s.schedule.tail } := hlive
  obtain ⟨hbanks, _, hreload, hbound, hlen, hmacros, hfault, hcode, hchan, haddr, hcfg, hmem, hsch⟩ :=
    startTick_fields { s with schedule := s.schedule.tail }
  refine ⟨_, step_tick htick, fun c => by rw [State.bank, hbanks, State.bank], hreload, ⟨hbound, hlen, hmacros⟩,
    ⟨hfault, hcode, hchan, haddr⟩, hcfg, hmem, hsch, fun hwait => ?_, fun helapsed => ?_⟩
  · obtain ⟨hcnt, hpass, hout⟩ := startTick_of_not_elapsed hlive' hwait
    refine ⟨?_, hpass.trans htick.1, hout⟩
    rw [hcnt]
    show (s.tempoCnt - 1).toNat + 1 = s.tempoCnt.toNat
    bv_omega
  · exact startTick_of_elapsed hlive' helapsed

/-! ### The hold (R173) -/

/-- Settles O23: the hold arm, on a length that is not 0. -/
theorem holdCountsDown : Obligations.HoldCountsDown := by
  intro s hp hn hl
  obtain ⟨frame, done, hbank, rest⟩ := hold_frame s
  refine ⟨_, step_hold hp hn hl, frame, done, hbank, ?_, rest⟩
  rw [hbank]
  show (s.here.len - 1).toNat + 1 = s.here.len.toNat
  bv_omega

/-! ### The fetch (R174, R255) -/

section
variable {s : State}

/-- The bytes at the cursor are fetched as the command they decode to. -/
theorem fetch_of_decode {i : Instr} {rest : List Byte}
    (hdec : decode [s.mem.read s.at, s.mem.read (s.at + 1)] = .ok (i, rest)) (hlen : s.at + i.length ≤ s.progLen.toNat)
    (hlimit : i.sounding = true ∨ s.nAdmin ≠ fetchLimit s.cfg) : fetch s = .command i := by
  rw [decode_pair] at hdec
  obtain ⟨rfl, _⟩ := Prod.mk.inj (Except.ok.inj hdec)
  rw [decodeCommand_length] at hlen
  rw [decodeCommand_sounding] at hlimit
  rcases fetch_cases s with
    ⟨h, _⟩ | ⟨_, hs, e⟩ | ⟨_, hs, hn, _⟩ | ⟨h, _, _, ht, _⟩ | ⟨_, _, _, ht, e⟩ | ⟨_, _, _, ht, e⟩
  · exfalso; split at hlen <;> omega
  · simpa [takesOperand_of_sounding hs] using e
  · simp [hs, hn] at hlimit
  · rw [if_pos ht] at hlen; omega
  · simpa [ht] using e
  · simpa [ht] using e

theorem fetch_outside (h : s.progLen.toNat ≤ s.at) : fetch s = .raise .fetchRange s.at := by
  simp [fetch, memRead1_of_ge h]

theorem fetch_at_limit (h : s.at < s.progLen.toNat) (hs : isSounding (s.mem.read s.at) = false)
    (hn : s.nAdmin = fetchLimit s.cfg) : fetch s = .raise .fetchLimit s.at := by
  simp [fetch, memRead1_of_lt h, hs, hn]

theorem fetch_operand_outside (h : s.at + 1 = s.progLen.toNat) (ht : takesOperand (s.mem.read s.at) = true)
    (hn : s.nAdmin ≠ fetchLimit s.cfg) : fetch s = .raise .fetchRange (s.at + 1) := by
  have hs : isSounding (s.mem.read s.at) = false := by
    by_contra hs
    simp [takesOperand_of_sounding (Bool.eq_true_of_not_eq_false hs)] at ht
  simp [fetch, memRead1_of_lt (show s.at < s.progLen.toNat by omega), memRead1_of_ge h.ge, hs, hn, ht]

theorem step_of_fetch_raise {cause : Cause} {x : Nat} (h : fetches s) (e : fetch s = .raise cause x) :
    ∃ t, step s = .next t ∧ faultEntered cause x s t :=
  ⟨raiseFault cause x s, by rw [step_fetch h, e], raiseFault_entered cause x s⟩

end

/-- Settles O24: the fetch answers the decoded command. -/
theorem stepRunsTheDecodedCommand : Obligations.StepRunsTheDecodedCommand := by
  intro s i rest hf hdec hlen hlimit
  rw [step_fetch hf, fetch_of_decode hdec hlen hlimit]

/-- Settles O25: the fetch raises each of the three faults. -/
theorem fetchFaultsInOrder : Obligations.FetchFaultsInOrder := fun _ hf =>
  ⟨fun h => step_of_fetch_raise hf (fetch_outside h),
    fun h hs hn => step_of_fetch_raise hf (fetch_at_limit h ((isSounding_eq_false_iff _).mpr hs) hn),
    fun h ht hn => step_of_fetch_raise hf (fetch_operand_outside h ht hn)⟩

/-! ### Where a step of a pass leads (R171, R172) -/

/-- A step of a pass runs a command of the channel's fetch loop below the fetch limit, or comes to the next channel, or ends
the TICK, after channel 3 or by a fault in its channel. -/
theorem step_pass_leads {s t : State} (hp : s.inPass = true) (hstep : step s = .next t) :
    (t.inPass = true ∧ t.chan = s.chan ∧ t.nAdmin = s.nAdmin + 1 ∧ s.nAdmin ≠ fetchLimit s.cfg) ∨
    (t.inPass = true ∧ t.chan.val = s.chan.val + 1 ∧ t.nAdmin = 0) ∨
    (betweenSteps t ∧ s.chan = 3 ∧ t.out = s.comb) ∨
    (betweenSteps t ∧ t.fault = true ∧ t.fchan.toNat = s.chan.val ∧ t.out = false) := by
  obtain ⟨u, hu, _, hcases⟩ := step_pass_cases s hp
  obtain rfl : u = t := Host.Outcome.next.inj (hu.symm.trans hstep)
  rcases hcases with
    ⟨_, ⟨hpass, hchan, hcount, _⟩, hlimit⟩ | ⟨_, hdone⟩ | ⟨_, _, _, _, hfault, _, hfchan, _, hout, hidle, _⟩
  · exact .inl ⟨hpass.trans hp, hchan, hcount, hlimit⟩
  · split at hdone
    · obtain ⟨hpass, hchan, hcount, _⟩ := hdone
      exact .inr (.inl ⟨hpass.trans hp, hchan, hcount⟩)
    · obtain ⟨hidle, hout⟩ := hdone
      exact .inr (.inr (.inl ⟨hidle, Fin.ext (show s.chan.val = 3 by omega), hout⟩))
  · exact .inr (.inr (.inr ⟨hidle, hfault, hfchan, hout⟩))

/-- A step that does not end the pass stays with its channel or comes to the next. -/
theorem step_pass_leads_of_inPass {s t : State} (hp : s.inPass = true) (hstep : step s = .next t)
    (ht : t.inPass = true) :
    (t.chan = s.chan ∧ t.nAdmin = s.nAdmin + 1 ∧ s.nAdmin ≠ fetchLimit s.cfg) ∨
    (t.chan.val = s.chan.val + 1 ∧ t.nAdmin = 0) := by
  rcases step_pass_leads hp hstep with ⟨_, hsame⟩ | ⟨_, hnext⟩ | ⟨hidle, _⟩ | ⟨hidle, _⟩
  · exact .inl hsame
  · exact .inr hnext
  · exact absurd ht (not_inPass_of_betweenSteps hidle)
  · exact absurd ht (not_inPass_of_betweenSteps hidle)

/-- Settles O26: where a step of a pass leads, without the count and the faulting channel. -/
theorem passStepsChannelsInOrder : Obligations.PassStepsChannelsInOrder := by
  intro s t hp hstep
  rcases step_pass_leads hp hstep with ⟨hpass, hchan, hcount, _⟩ | hnext | hlast | ⟨hidle, hfault, _, hout⟩
  · exact .inl ⟨hpass, hchan, hcount⟩
  · exact .inr (.inl hnext)
  · exact .inr (.inr (.inl hlast))
  · exact .inr (.inr (.inr ⟨hidle, hfault, hout⟩))

/-! ### Every pass ends (R175) -/

/-- An upper bound of the steps a pass has still to take: `FETCH_LIMIT + 1` on each channel from the present one on, less the
commands already counted. -/
def passStepsLeft (s : State) : Nat := (4 - s.chan.val) * (fetchLimit s.cfg + 1) - s.nAdmin

theorem passStepsLeft_of_begun {s : State} (hchan : s.chan = 0) (hcount : s.nAdmin = 0) :
    passStepsLeft s = passBound s.cfg := by
  simp [passStepsLeft, passBound, hchan, hcount]

/-- The channel a pass has come to has a step left. -/
theorem passStepsLeft_pos {s : State} (hn : s.nAdmin ≤ fetchLimit s.cfg) : 0 < passStepsLeft s := by
  have hone : 1 * (fetchLimit s.cfg + 1) ≤ (4 - s.chan.val) * (fetchLimit s.cfg + 1) :=
    Nat.mul_le_mul_right _ (by omega)
  unfold passStepsLeft
  omega

/-- A step that does not end the pass keeps the count within the limit and leaves fewer steps to take. -/
theorem passStepsLeft_step {s t : State} (hp : s.inPass = true) (hn : s.nAdmin ≤ fetchLimit s.cfg)
    (hstep : step s = .next t) (ht : t.inPass = true) :
    t.nAdmin ≤ fetchLimit t.cfg ∧ passStepsLeft t < passStepsLeft s := by
  obtain ⟨hcfg, _⟩ := coreNeverWritesMemory s t hstep
  have hpos := passStepsLeft_pos hn
  rcases step_pass_leads_of_inPass hp hstep ht with ⟨hchan, hcount, hlimit⟩ | ⟨hchan, hcount⟩
  · unfold passStepsLeft at hpos ⊢
    rw [hcfg, hchan, hcount]
    omega
  · have hsplit : 4 - s.chan.val = (4 - t.chan.val) + 1 := by omega
    unfold passStepsLeft
    rw [hcfg, hcount, hsplit, Nat.succ_mul]
    omega

theorem finishTick_ends (k : Nat) {s : State} (hn : s.nAdmin ≤ fetchLimit s.cfg) (hk : passStepsLeft s ≤ k) :
    (finishTick k s).inPass = false := by
  induction k generalizing s with
  | zero => exact absurd (passStepsLeft_pos hn) (Nat.not_lt.mpr hk)
  | succ k ih =>
    cases hp : s.inPass with
    | false => rwa [finishTick_of_ended _ hp]
    | true =>
      obtain ⟨t, hstep, _⟩ := step_pass_cases s hp
      rw [finishTick_succ_of_step k hp hstep]
      cases ht : t.inPass with
      | false => rwa [finishTick_of_ended _ ht]
      | true =>
        obtain ⟨hn', hleft⟩ := passStepsLeft_step hp hn hstep ht
        exact ih hn' (by omega)

/-- Settles O28: a pass begins at channel 0 with as many steps left as the core step allows it. -/
theorem everyTickEnds : Obligations.EveryTickEnds := by
  intro s hp
  cases hbegun : (takeStrobe s).inPass with
  | false => rwa [coreStep, finishTick_of_ended _ hbegun]
  | true =>
    obtain ⟨hchan, hcount⟩ := takeStrobe_begins hp hbegun
    refine finishTick_ends _ (hcount ▸ Nat.zero_le _) (Nat.le_of_eq ?_)
    rw [passStepsLeft_of_begun hchan hcount, (takeStrobe_memory s).1]

/-! ### A pass works on one channel at a time -/

/-- `t` has the bank and the oscillator of channel `c` as in `s`. -/
def sameChannel (c : Chan) (s t : State) : Prop :=
  t.bank c = s.bank c ∧ ∀ h : c.val < 3, t.osc (pulseOf c h) = s.osc (pulseOf c h)

theorem sameChannel.refl (c : Chan) (s : State) : sameChannel c s s := ⟨rfl, fun _ => rfl⟩

theorem sameChannel.trans {c : Chan} {s t u : State} (h₁ : sameChannel c s t) (h₂ : sameChannel c t u) :
    sameChannel c s u :=
  ⟨h₂.1.trans h₁.1, fun h => (h₂.2 h).trans (h₁.2 h)⟩

section
variable {s t : State} {c : Chan}

theorem soundingPart_osc_of_ne {i : Instr} (hu : soundingPart i s t) (hc : c ≠ s.chan) (h : c.val < 3) :
    t.osc (pulseOf c h) = s.osc (pulseOf c h) := by
  rcases hu with rfl | ⟨hs, o, _, _, rfl⟩ | ⟨_, p, _, hp, _, rfl⟩
  · rfl
  · have hne : pulseOf c h ≠ pulseOf s.chan hs := fun e => hc (Fin.ext (Fin.mk.inj e))
    rw [State.osc_setOsc, if_neg hne]
  · rfl

/-- A command writes no oscillator but its channel's. -/
theorem exec_osc_of_ne {i : Instr} (ht : exec i s = .next t) (hc : c ≠ s.chan) (h : c.val < 3) :
    t.osc (pulseOf c h) = s.osc (pulseOf c h) := by
  obtain ⟨u, hu, hcases⟩ := exec_cases i s
  obtain rfl : u = t := Host.Outcome.next.inj (hu.symm.trans ht)
  rcases hcases with ⟨_, w, b, _, rfl⟩ | ⟨w, op, _, rfl⟩ | ⟨_, d, u, hpart, rfl⟩ | ⟨cause, x, _, _, rfl⟩
  · rfl
  · rfl
  · obtain ⟨_, _, _, hosc, _⟩ := soundingTail_done d u
    rw [hosc, soundingPart_osc_of_ne hpart hc h]
  · rfl

theorem step_pass_osc_of_ne (hp : s.inPass = true) (hstep : step s = .next t) (hc : c ≠ s.chan) (h : c.val < 3) :
    t.osc (pulseOf c h) = s.osc (pulseOf c h) := by
  by_cases hf : fetches s
  · rw [step_fetch hf] at hstep
    cases hfetch : fetch s with
    | command i =>
      rw [hfetch] at hstep
      exact exec_osc_of_ne hstep hc h
    | raise cause x =>
      rw [hfetch] at hstep
      cases hstep
      rfl
  · obtain ⟨hn, hl⟩ := holds_of_not_fetches hp hf
    obtain ⟨_, _, _, hosc, _⟩ := hold_frame s
    rw [step_hold hp hn hl] at hstep
    cases hstep
    exact hosc _

/-- A step of a pass leaves every channel but the one it is at. -/
theorem step_pass_sameChannel (hp : s.inPass = true) (hstep : step s = .next t) (hc : c ≠ s.chan) :
    sameChannel c s t := by
  obtain ⟨u, hu, ⟨_, _, _, _, hbanks⟩, _⟩ := step_pass_cases s hp
  obtain rfl : u = t := Host.Outcome.next.inj (hu.symm.trans hstep)
  exact ⟨hbanks c hc, step_pass_osc_of_ne hp hstep hc⟩

end

/-- A pass that is past a channel leaves it. -/
theorem finishTick_past_sameChannel {c : Chan} (k : Nat) {s : State} (hc : s.inPass = true → c.val < s.chan.val) :
    sameChannel c s (finishTick k s) := by
  induction k generalizing s with
  | zero => exact .refl c s
  | succ k ih =>
    cases hp : s.inPass with
    | false => rw [finishTick_of_ended _ hp]; exact .refl c s
    | true =>
      have hlt := hc hp
      obtain ⟨t, hstep, _⟩ := step_pass_cases s hp
      rw [finishTick_succ_of_step k hp hstep]
      refine (step_pass_sameChannel hp hstep (Fin.ne_of_lt hlt)).trans (ih fun ht => ?_)
      rcases step_pass_leads_of_inPass hp hstep ht with ⟨hchan, _⟩ | ⟨hchan, _⟩
      · exact hchan ▸ hlt
      · omega

/-! ### A pass comes to every channel -/

/-- The pass has just come to channel `c`. -/
def comesTo (c : Chan) (s : State) : Prop := s.inPass = true ∧ s.chan = c ∧ s.nAdmin = 0

/-- The TICK has ended with a fault in a channel below `c`. -/
def faultedBelow (c : Chan) (s : State) : Prop := s.inPass = false ∧ s.fault = true ∧ s.fchan.toNat < c.val

/-- In at most `n` steps the pass comes to channel `c`, which is as it was, or a lower channel faults. -/
def reachesWithin (n : Nat) (c : Chan) (s : State) : Prop :=
  ∃ k ≤ n, sameChannel c s (finishTick k s) ∧ (comesTo c (finishTick k s) ∨ faultedBelow c (finishTick k s))

theorem reachesWithin.of_step {n : Nat} {c : Chan} {s t : State} (hp : s.inPass = true) (hstep : step s = .next t)
    (hsame : sameChannel c s t) (h : reachesWithin n c t) : reachesWithin (n + 1) c s := by
  obtain ⟨k, hk, hsame', hend⟩ := h
  refine ⟨k + 1, Nat.succ_le_succ hk, ?_⟩
  rw [finishTick_succ_of_step k hp hstep]
  exact ⟨hsame.trans hsame', hend⟩

/-- A pass that is not past channel `c` reaches it in the steps it has left. -/
theorem reachesWithin_of_stepsLeft {c : Chan} (n : Nat) {s : State} (hp : s.inPass = true) (hn : s.nAdmin ≤ fetchLimit s.cfg)
    (hleft : passStepsLeft s ≤ n) (hc : s.chan.val < c.val ∨ comesTo c s) : reachesWithin n c s := by
  induction n generalizing s with
  | zero => exact absurd (passStepsLeft_pos hn) (Nat.not_lt.mpr hleft)
  | succ n ih =>
    rcases hc with hbelow | hcome
    · obtain ⟨t, hstep, _⟩ := step_pass_cases s hp
      refine .of_step hp hstep (step_pass_sameChannel hp hstep (Fin.ne_of_gt hbelow)) ?_
      have hgoesOn : t.inPass = true → (t.chan.val < c.val ∨ comesTo c t) → reachesWithin n c t := fun ht hc' => by
        obtain ⟨hn', hlt⟩ := passStepsLeft_step hp hn hstep ht
        exact ih ht hn' (by omega) hc'
      rcases step_pass_leads hp hstep with
        ⟨ht, hchan, _⟩ | ⟨ht, hchan, hcount⟩ | ⟨_, hlast, _⟩ | ⟨hidle, hfault, hfchan, _⟩
      · exact hgoesOn ht (.inl (hchan ▸ hbelow))
      · rcases Nat.lt_or_ge t.chan.val c.val with hlt | hge
        · exact hgoesOn ht (.inl hlt)
        · exact hgoesOn ht (.inr ⟨ht, Fin.ext (by omega), hcount⟩)
      · rw [hlast] at hbelow
        exact absurd hbelow (Nat.not_lt.mpr (Nat.le_of_lt_succ c.isLt))
      · exact ⟨0, Nat.zero_le _, .refl c t, .inr ⟨hidle.1, hfault, hfchan.trans_lt hbelow⟩⟩
    · exact ⟨0, Nat.zero_le _, .refl c s, .inl hcome⟩

/-! ### Steps of the core that are TICKs -/

/-- Between the core's steps, with TICKs alone to come. -/
def ticksAhead (s : State) : Prop := s.inPass = false ∧ s.schedule = []

section
variable {s : State}

theorem takeStrobe_of_ticksAhead (h : ticksAhead s) : takeStrobe s = startTick s := by rw [takeStrobe, h.2]

theorem finishTick_schedule (k : Nat) (s : State) : (finishTick k s).schedule = s.schedule := by
  induction k generalizing s with
  | zero => rfl
  | succ k ih =>
    cases hp : s.inPass with
    | false => rw [finishTick_of_ended _ hp]
    | true =>
      obtain ⟨t, hstep, ⟨⟨_, _, hsch⟩, _⟩, _⟩ := step_pass_cases s hp
      rw [finishTick_succ_of_step k hp hstep, ih, hsch]

theorem coreStep_ticksAhead (h : ticksAhead s) : ticksAhead (coreStep s) := by
  obtain ⟨_, _, _, _, _, _, _, _, _, _, _, _, hsch⟩ := startTick_fields s
  refine ⟨everyTickEnds s h.1, ?_⟩
  rw [coreStep, finishTick_schedule, takeStrobe_of_ticksAhead h, hsch, h.2]

theorem coreStep_of_fault (h : ticksAhead s) (hf : s.fault = true) : coreStep s = s := by
  rw [coreStep, takeStrobe_of_ticksAhead h, startTick_of_not_live (not_live_of_idle_or_halted (.inr hf)),
    finishTick_of_ended _ h.1]

/-- TICKs alone clear no fault (R256). -/
theorem unfaulted_of_coreSteps (n : Nat) (h : ticksAhead s) (hf : (coreSteps n s).fault = false) : s.fault = false := by
  induction n generalizing s with
  | zero => exact hf
  | succ n ih =>
    have hnext : (coreStep s).fault = false := ih (coreStep_ticksAhead h) hf
    cases hs : s.fault with
    | false => rfl
    | true => rw [coreStep_of_fault h hs, hs] at hnext; exact hnext

/-- A TICK that runs a pass reaches every channel in the steps it may take. -/
theorem startTick_reaches (c : Chan) (hlive : live s) (he : tempoElapsed s) :
    reachesWithin (passBound s.cfg) c (startTick s) := by
  obtain ⟨_, hpass, hchan, hcount, _⟩ := startTick_of_elapsed hlive he
  obtain ⟨hcfg, _⟩ := startTick_memory s
  refine reachesWithin_of_stepsLeft _ hpass (hcount ▸ Nat.zero_le _) ?_ ?_
  · rw [passStepsLeft_of_begun hchan hcount, hcfg]
  · rcases Nat.eq_zero_or_pos c.val with h0 | hpos
    · exact .inr ⟨hpass, hchan.trans (Fin.ext h0).symm, hcount⟩
    · exact .inl (hchan ▸ hpos)

end

/-! ### The hold law (R178) -/

/-- `t` has the bank of channel `c` as in `s` but for its length, and the note its oscillator plays. -/
def sameNote (c : Chan) (s t : State) : Prop :=
  (∃ l, t.bank c = { s.bank c with len := l }) ∧
  ∀ h : c.val < 3, (t.osc (pulseOf c h)).period = (s.osc (pulseOf c h)).period ∧
    (t.osc (pulseOf c h)).duty = (s.osc (pulseOf c h)).duty

theorem sameNote.refl (c : Chan) (s : State) : sameNote c s s := ⟨⟨_, rfl⟩, fun _ => ⟨rfl, rfl⟩⟩

theorem sameNote.trans {c : Chan} {s t u : State} (h₁ : sameNote c s t) (h₂ : sameNote c t u) : sameNote c s u := by
  obtain ⟨⟨l₁, hb₁⟩, ho₁⟩ := h₁
  obtain ⟨⟨l₂, hb₂⟩, ho₂⟩ := h₂
  exact ⟨⟨l₂, by rw [hb₂, hb₁]⟩, fun h => ⟨(ho₂ h).1.trans (ho₁ h).1, (ho₂ h).2.trans (ho₁ h).2⟩⟩

theorem sameChannel.sameNote {c : Chan} {s t : State} (h : sameChannel c s t) : sameNote c s t :=
  ⟨⟨(s.bank c).len, h.1⟩, fun hc => by rw [h.2 hc]; exact ⟨rfl, rfl⟩⟩

section
variable {s : State} {c : Chan}

/-- A TICK up to its pass writes no bank, and of an oscillator the phase alone. -/
theorem startTick_sameNote (c : Chan) (s : State) :
    (startTick s).bank c = s.bank c ∧ sameNote c s (startTick s) := by
  obtain ⟨hbanks, _⟩ := startTick_fields s
  have hbank : (startTick s).bank c = s.bank c := by rw [State.bank, hbanks, State.bank]
  refine ⟨hbank, ⟨(s.bank c).len, hbank⟩, fun h => ?_⟩
  by_cases hlive : live s
  · rw [(startTick_pulse hlive _).1]
    exact ⟨rfl, rfl⟩
  · rw [startTick_of_not_live hlive]
    exact ⟨rfl, rfl⟩

/-- The rest of a pass that has come to a channel that holds: the hold counts down, and the channel is left alone. -/
theorem finishTick_hold (k : Nat) (hcome : comesTo c s) (hl : (s.bank c).len ≠ 0#8)
    (hend : (finishTick k s).inPass = false) :
    (finishTick k s).bank c = { s.bank c with len := (s.bank c).len - 1 } ∧ sameNote c s (finishTick k s) := by
  obtain ⟨hp, rfl, hn⟩ := hcome
  cases k with
  | zero => exact absurd (hend.symm.trans hp) Bool.false_ne_true
  | succ k =>
    obtain ⟨_, hdone, hbank, hosc, _⟩ := hold_frame s
    have hstep := step_hold hp hn hl
    rw [finishTick_succ_of_step k hp hstep]
    have hpast : sameChannel s.chan (hold s) (finishTick k (hold s)) := finishTick_past_sameChannel k fun ht => by
      obtain ⟨_, hdone⟩ := hdone
      split at hdone
      · obtain ⟨_, hchan, _⟩ := hdone
        omega
      · exact absurd ht (not_inPass_of_betweenSteps hdone.1)
    have hheld : sameNote s.chan s (hold s) := ⟨⟨_, hbank⟩, fun h => by rw [hosc]; exact ⟨rfl, rfl⟩⟩
    exact ⟨hpast.1.trans hbank, hheld.trans hpast.sameNote⟩

/-- A TICK that runs a pass, and does not fault, counts down a channel that holds. -/
theorem coreStep_pass (h : ticksAhead s) (hlive : live s) (he : tempoElapsed s) (hl : (s.bank c).len ≠ 0#8)
    (hf : (coreStep s).fault = false) :
    (coreStep s).bank c = { s.bank c with len := (s.bank c).len - 1 } ∧ sameNote c s (coreStep s) := by
  obtain ⟨hbank, hnote⟩ := startTick_sameNote c s
  obtain ⟨k, hk, hsame, hcases⟩ := startTick_reaches c hlive he
  obtain ⟨m, hm⟩ := Nat.exists_eq_add_of_le hk
  have hcore : coreStep s = finishTick m (finishTick k (startTick s)) := by
    rw [coreStep, takeStrobe_of_ticksAhead h, hm, finishTick_add]
  have hend : (coreStep s).inPass = false := everyTickEnds s h.1
  rw [hcore] at hf hend ⊢
  have hthere : (finishTick k (startTick s)).bank c = s.bank c := hsame.1.trans hbank
  rcases hcases with hcome | ⟨hidle, hfault, _⟩
  · obtain ⟨hheld, hnote'⟩ := finishTick_hold m hcome (hthere ▸ hl) hend
    rw [hthere] at hheld
    exact ⟨hheld, (hnote.trans hsame.sameNote).trans hnote'⟩
  · rw [finishTick_of_ended _ hidle, hfault] at hf
    cases hf

/-- Any other TICK leaves the bank. -/
theorem coreStep_no_pass (h : ticksAhead s) (hno : ¬ (live s ∧ tempoElapsed s)) :
    (coreStep s).bank c = s.bank c ∧ sameNote c s (coreStep s) := by
  have hended : (startTick s).inPass = false := by
    by_cases hlive : live s
    · obtain ⟨_, hpass, _⟩ := startTick_of_not_elapsed hlive fun he => hno ⟨hlive, he⟩
      exact hpass.trans h.1
    · rw [startTick_of_not_live hlive, h.1]
  rw [coreStep, takeStrobe_of_ticksAhead h, finishTick_of_ended _ hended]
  exact startTick_sameNote c s

/-- One TICK of the hold law: a pass takes 1 from the length, any other TICK nothing. -/
theorem coreStep_holds (h : ticksAhead s) (hlen : passesIn 1 s ≤ (s.bank c).len.toNat) (hf : (coreStep s).fault = false) :
    ((coreStep s).bank c).len.toNat = (s.bank c).len.toNat - passesIn 1 s ∧ sameNote c s (coreStep s) := by
  simp only [passesIn, Nat.add_zero] at hlen ⊢
  split at hlen
  · next hpass =>
    have hl : (s.bank c).len ≠ 0#8 := by bv_omega
    obtain ⟨hbank, hnote⟩ := coreStep_pass h hpass.1 hpass.2 hl hf
    refine ⟨?_, hnote⟩
    rw [hbank, if_pos hpass]
    show ((s.bank c).len - 1).toNat = (s.bank c).len.toNat - 1
    bv_omega
  · next hno =>
    obtain ⟨hbank, hnote⟩ := coreStep_no_pass (c := c) h hno
    exact ⟨by rw [hbank, if_neg hno, Nat.sub_zero], hnote⟩

/-- As many TICKs as run at most the length's number of passes. -/
theorem coreSteps_hold (n : Nat) (h : ticksAhead s) (hlen : passesIn n s ≤ (s.bank c).len.toNat)
    (hf : (coreSteps n s).fault = false) :
    ((coreSteps n s).bank c).len.toNat = (s.bank c).len.toNat - passesIn n s ∧ sameNote c s (coreSteps n s) ∧
    ticksAhead (coreSteps n s) := by
  induction n generalizing s with
  | zero => exact ⟨rfl, .refl c s, h⟩
  | succ n ih =>
    have hnext := coreStep_ticksAhead h
    have hsum : passesIn (n + 1) s = passesIn 1 s + passesIn n (coreStep s) := rfl
    obtain ⟨hlen₁, hnote₁⟩ := coreStep_holds (c := c) h (by omega) (unfaulted_of_coreSteps n hnext hf)
    obtain ⟨hlen₂, hnote₂, hahead⟩ := ih hnext (by omega) hf
    refine ⟨?_, hnote₁.trans hnote₂, hahead⟩
    rw [coreSteps]
    omega

/-- The next pass fetches on a channel whose length has run out. -/
theorem nextPassFetches_of_len_zero (h : ticksAhead s) (hlen : (s.bank c).len = 0#8) (hlive : live s)
    (he : tempoElapsed s) : nextPassFetches c s := by
  obtain ⟨hbank, _⟩ := startTick_sameNote c s
  obtain ⟨k, hk, hsame, hcases⟩ := startTick_reaches c hlive he
  have hthere : (finishTick k (startTick s)).bank c = s.bank c := hsame.1.trans hbank
  refine ⟨k, finishTick k (startTick s), hk, by rw [takeStrobe_of_ticksAhead h], ?_⟩
  rcases hcases with ⟨hp, hchan, hcount⟩ | ⟨_, hfault, hfchan⟩
  · have hhere : (finishTick k (startTick s)).here = s.bank c := by rw [State.here, hchan, hthere]
    exact .inl ⟨hchan, hcount, ⟨hp, .inr (by rw [hhere, hlen])⟩, hthere⟩
  · exact .inr ⟨hfault, hfchan⟩

end

/-- Settles O29, by induction on the TICKs; the length left after as many passes is 0, and a channel of length 0 fetches. -/
theorem holdLastsExactlyItsLength : Obligations.HoldLastsExactlyItsLength := by
  intro n s c hp hs hlen hf
  obtain ⟨hleft, ⟨hbank, hosc⟩, hahead⟩ := coreSteps_hold n ⟨hp, hs⟩ hlen hf
  refine ⟨hleft, hbank, hosc, fun hall hlive he => nextPassFetches_of_len_zero hahead ?_ hlive he⟩
  exact BitVec.eq_of_toNat_eq (by rw [hleft, hall, Nat.sub_self]; rfl)

end Sys2Proof.Machine

/-! The extended commands (43_extended_commands.md): what LOOPS, LOOPE and RET answer, branch by branch, and the loop
count law (R192) from what LOOPS and LOOPE do to the top entry of the loop stack. -/

namespace Sys2Proof.Machine

section
variable {s t : State}

/-! ### What the commands answer -/

/-- A push (R190), on a stack whose next free entry is `k`. -/
theorem exec_loops_push {op : Byte} (hop : op ≠ 0#8) {k : Fin 5} (hk : s.here.lsp.val = k.val) :
    exec (.loops op) s = .next (continueAt (s.here.cur + 2)
      (s.setHere { s.here with
        lret := s.here.lret.set k (s.here.cur + 2), lcnt := s.here.lcnt.set k (loopCountOf op), lsp := k.succ })) := by
  have hroom : s.here.lsp.val < 5 := hk ▸ k.isLt
  obtain rfl : k = ⟨s.here.lsp.val, hroom⟩ := Fin.ext hk.symm
  exact (if_neg hop).trans (dif_pos hroom)

/-- LOOPE (R191) on a stack whose top entry is `k`. -/
theorem exec_loope_top {k : Fin 5} (hk : s.here.lsp.val = k.val + 1) :
    exec .loope s =
      if s.here.lcnt[k] = 0#8 then
        .next (continueAt (s.here.cur + 1) (s.setHere { s.here with lsp := k.castSucc }))
      else
        .next (continueAt s.here.lret[k]
          (s.setHere { s.here with lcnt := s.here.lcnt.set k (s.here.lcnt[k] - 1#8) })) := by
  have hlive : s.here.lsp.val ≠ 0 := by omega
  have htop : s.here.lsp.val - 1 < 5 := by omega
  obtain rfl : k = ⟨s.here.lsp.val - 1, htop⟩ := Fin.ext (by simp [hk])
  exact dif_neg hlive

theorem exec_loope_empty (h : s.here.lsp = 0) : exec .loope s = .next (raiseFault .loopUnf s.at s) :=
  dif_pos (congrArg Fin.val h)

theorem exec_ret_return (h : s.here.retv = true) :
    exec .ret s = .next (continueAt s.here.ret (s.setHere { s.here with ret := 0, retv := false })) := if_pos h

/-- The restart (R198): the header slot of every channel lies in the first 8 bytes of the program. -/
theorem exec_ret_restart (h : s.here.retv = false) (hlen : 8 ≤ s.progLen.toNat) :
    exec .ret s = .next (continueAt (s.mem.word (2 * s.chan.val)) s) := by
  have hchan := s.chan.isLt
  have hread : memRead2 s (slotAddr s.chan.val) = .ok (s.mem.word (2 * s.chan.val)) :=
    memRead2_of_lt (by unfold slotAddr; omega)
  simp [exec, execRet, h, hread]

/-! ### The frame of a command that writes its channel's bank -/

/-- An administrative command that only writes its channel's bank: what it goes on with, and everything it leaves. -/
theorem continueAt_setHere_frame (w : Word) (b : Bank) (s : State) :
    commandFrame s (continueAt w (s.setHere b)) ∧ loopGoesOn s (continueAt w (s.setHere b)) ∧
    (continueAt w (s.setHere b)).bank s.chan = { b with cur := w } ∧
    (∀ c, (continueAt w (s.setHere b)).osc c = s.osc c) ∧ sameWindow s (continueAt w (s.setHere b)) ∧
    (continueAt w (s.setHere b)).tempoReload = s.tempoReload := by
  obtain ⟨frame, goesOn, bank⟩ := continueAt_setHere w b s
  exact ⟨frame, goesOn, bank, fun _ => rfl, ⟨rfl, rfl⟩, rfl⟩

/-- The same for a command that moves the cursor alone. -/
theorem continueAt_frame (w : Word) (s : State) :
    commandFrame s (continueAt w s) ∧ loopGoesOn s (continueAt w s) ∧
    (continueAt w s).bank s.chan = { s.here with cur := w } ∧ (∀ c, (continueAt w s).osc c = s.osc c) ∧
    sameWindow s (continueAt w s) ∧ (continueAt w s).tempoReload = s.tempoReload := by
  have h := continueAt_setHere_frame w s.here s
  rwa [State.setHere_here] at h

theorem here_continueAt_setHere (w : Word) (b : Bank) (s : State) :
    (continueAt w (s.setHere b)).here = { b with cur := w } := bank_continueAt_setHere w b s

/-! ### The loop count law (R192) -/

/-- The top entry of the channel's loop stack is `k`, with return offset `target` and `left` repeats to come. -/
def insideLoop (k : Fin 5) (target : Word) (left : Nat) (s : State) : Prop :=
  s.here.lsp.val = k.val + 1 ∧ s.here.lret[k] = target ∧ (s.here.lcnt[k]).toNat = left

section
variable {k : Fin 5} {target : Word} {left : Nat}

/-- A body that keeps the live loop stack keeps its top entry. -/
theorem insideLoop.of_sameLoopStack (h : insideLoop k target left s) (same : sameLoopStack s t) :
    insideLoop k target left t := by
  obtain ⟨htop, htarget, hleft⟩ := h
  obtain ⟨_, hlsp, hentries⟩ := same
  obtain ⟨hlret, hlcnt⟩ := hentries k (by omega)
  exact ⟨hlsp ▸ htop, hlret.trans htarget, hlcnt ▸ hleft⟩

/-- LOOPS enters a loop with one repeat less than its operand (R190). -/
theorem loops_entersLoop {op : Byte} (hop : op ≠ 0#8) (hk : s.here.lsp.val = k.val)
    (h : exec (.loops op) s = .next t) : insideLoop k (s.here.cur + 2) (op.toNat - 1) t := by
  rw [exec_loops_push hop hk] at h
  cases h
  have hcount : (loopCountOf op).toNat = op.toNat - 1 := by unfold loopCountOf; bv_omega
  simp [insideLoop, here_continueAt_setHere, hcount]

/-- With repeats to come LOOPE jumps back and stays in the loop (R191). -/
theorem loope_repeats (hin : insideLoop k target (left + 1) s) (h : exec .loope s = .next t) :
    t.here.cur = target ∧ insideLoop k target left t := by
  obtain ⟨htop, htarget, hleft⟩ := hin
  have hcnt : s.here.lcnt[k] ≠ 0#8 := fun h0 => by simp [h0] at hleft
  have hcount : (s.here.lcnt[k] - 1#8).toNat = left := by bv_omega
  rw [exec_loope_top htop, if_neg hcnt] at h
  cases h
  rw [insideLoop, here_continueAt_setHere]
  exact ⟨htarget, htop, htarget, by simpa using hcount⟩

/-- With none to come LOOPE pops the entry and falls through (R191). -/
theorem loope_leavesLoop (hin : insideLoop k target 0 s) (h : exec .loope s = .next t) :
    t.here.cur = s.here.cur + 1 ∧ t.here.lsp.val = k.val := by
  obtain ⟨htop, _, hleft⟩ := hin
  rw [exec_loope_top htop, if_pos (BitVec.eq_of_toNat_eq hleft)] at h
  cases h
  rw [here_continueAt_setHere]
  exact ⟨rfl, rfl⟩

/-- An arrival at LOOPE with `n - j` repeats left, one of them at least. -/
theorem loope_repeats_of_lt {n j : Nat} (hj : j < n) (hin : insideLoop k target (n - j) s)
    (h : exec .loope s = .next t) : t.here.cur = target ∧ insideLoop k target (n - (j + 1)) t := by
  rw [show n - j = n - (j + 1) + 1 by omega] at hin
  exact loope_repeats hin h

/-- Where `n` repeats are to come, the first `n + 1` arrivals at LOOPE find `n`, `n - 1`, ..., 0 of them left. -/
theorem insideLoop_at_arrivals {x y : Nat → State} (n : Nat) (hstart : insideLoop k target n (y 0))
    (hbody : ∀ j, j < n + 1 → sameLoopStack (y j) (x (j + 1)) ∧ exec .loope (x (j + 1)) = .next (y (j + 1)))
    (j : Nat) (hj : j ≤ n) : insideLoop k target (n - j) (x (j + 1)) := by
  induction j with
  | zero => exact hstart.of_sameLoopStack (hbody 0 (by omega)).1
  | succ j ih =>
    obtain ⟨_, hin⟩ := loope_repeats_of_lt hj (ih (by omega)) (hbody j (by omega)).2
    exact hin.of_sameLoopStack (hbody (j + 1) (by omega)).1

end

end

/-- Settles O36: the arrivals before the last use up the repeats LOOPS has pushed, and the last one finds none. -/
theorem loopBodyRunsOperandTimes : Obligations.LoopBodyRunsOperandTimes := by
  intro op s x y hop hroom hloops hbody
  obtain ⟨n, hn⟩ : ∃ n, op.toNat = n + 1 := Nat.exists_eq_succ_of_ne_zero fun h => hop (BitVec.eq_of_toNat_eq h)
  have hstart := loops_entersLoop (k := ⟨s.here.lsp.val, hroom⟩) hop rfl hloops
  rw [hn] at hbody hstart ⊢
  have harrives := insideLoop_at_arrivals n hstart hbody
  refine ⟨fun k hk hkn => ?_, ?_⟩
  · obtain ⟨j, rfl⟩ := Nat.exists_eq_succ_of_ne_zero (Nat.ne_of_gt hk)
    exact (loope_repeats_of_lt (by omega) (harrives j (by omega)) (hbody j (by omega)).2).1
  · have hlast := harrives n (Nat.le_refl n)
    rw [Nat.sub_self] at hlast
    obtain ⟨hcur, hlsp⟩ := loope_leavesLoop hlast (hbody n (Nat.lt_succ_self n)).2
    exact ⟨hcur, Fin.ext hlsp⟩

/-- Settles O35: the two cases of the top entry, and the empty stack. -/
theorem loopeRepeatsPopsOrFaults : Obligations.LoopeRepeatsPopsOrFaults := by
  intro s
  refine ⟨fun k hk hcnt => ?_, fun k hk hcnt => ?_, fun h => ⟨_, exec_loope_empty h, raiseFault_entered _ _ s⟩⟩
  · obtain ⟨frame, goesOn, hbank, rest⟩ := continueAt_setHere_frame s.here.lret[k]
      { s.here with lcnt := s.here.lcnt.set k (s.here.lcnt[k] - 1#8) } s
    refine ⟨_, (exec_loope_top hk).trans (if_neg hcnt), frame, goesOn, ?_, ?_, ?_, ?_, rest⟩ <;> rw [hbank]
    · have hcount : (s.here.lcnt[k] - 1#8).toNat + 1 = (s.here.lcnt[k]).toNat := by bv_omega
      simpa using hcount
    · intro j hj
      simp [Fin.val_ne_of_ne hj.symm]
  · exact ⟨_, (exec_loope_top hk).trans (if_pos hcnt), continueAt_setHere_frame _ _ s⟩

/-- Settles O38: the slot that holds a value, and the one that does not. -/
theorem retReturnsOrRestarts : Obligations.RetReturnsOrRestarts := by
  intro s
  refine ⟨fun hv => ⟨_, exec_ret_return hv, continueAt_setHere_frame _ _ s⟩, fun hv hlen => ?_⟩
  obtain ⟨frame, goesOn, hbank, rest⟩ := continueAt_frame (s.mem.word (2 * s.chan.val)) s
  refine ⟨_, exec_ret_restart hv hlen, frame, goesOn, ?_, ?_, rest⟩ <;> rw [hbank]
  exact Memory.word_toNat s.mem _

/-- Settles O42: TIE moves the cursor alone. -/
theorem tieSkipsOneByte : Obligations.TieSkipsOneByte := fun s =>
  ⟨continueAt (s.here.cur + 1) s, rfl, continueAt_frame _ s⟩

/-- Settles O43: the command is the fault entry. -/
theorem illegalExtendedBytesFault : Obligations.IllegalExtendedBytesFault := fun _ s =>
  ⟨raiseFault .illegal s.at s, rfl, raiseFault_entered _ _ s⟩

end Sys2Proof.Machine

/-! The administrative events (44_admin_events.md): OCT and VOL write one field of their channel's bank and go on. -/

namespace Sys2Proof.Machine

/-- The multiplier of R220 is the power of two itself: the shift drops no bit of the 16. -/
theorem octaveOf_toNat (n : Nibble) : (octaveOf n).toNat = 2 ^ n.toNat := by
  have hfits : 2 ^ n.toNat < 2 ^ 16 := Nat.pow_lt_pow_right (by decide) n.isLt
  simpa [octaveOf, Nat.shiftLeft_eq] using hfits

/-- Settles O32: OCT writes `octaveOf n` into its channel's bank. -/
theorem octSetsMultiplier : Obligations.OctSetsMultiplier := by
  intro n s
  obtain ⟨frame, goesOn, hbank, rest⟩ := continueAt_setHere_frame (s.here.cur + 1) { s.here with oct := octaveOf n } s
  refine ⟨_, rfl, frame, goesOn, ?_, ?_, rest⟩ <;> rw [hbank]
  exact octaveOf_toNat n

/-- Settles O33: a legal volume is written into the channel's bank, and an illegal one is the fault entry. -/
theorem volSetsVolumeOrFaults : Obligations.VolSetsVolumeOrFaults := fun v s =>
  ⟨⟨_, rfl, continueAt_setHere_frame (s.here.cur + 1) { s.here with vol := v } s⟩,
    ⟨_, rfl, raiseFault_entered .volume s.at s⟩⟩

end Sys2Proof.Machine

/-! The sounding events (45_sounding_events.md): on a pulse channel REST and NOTE rewrite the channel's oscillator
before their common tail; on channel 3 REST is the tail alone, and NOTE selects a waveform before it or faults. -/

namespace Sys2Proof.Machine

/-! ### The channel of an oscillator and the oscillator of a channel -/

theorem chanOf_eq_iff {c : Chan} (h : isPulse c) (q : Pulse) : chanOf q = c ↔ q = pulseOf c h := by
  simp [chanOf, pulseOf, Fin.ext_iff]

/-- Channel 3 has no oscillator (R4). -/
theorem chanOf_ne_of_not_isPulse {c : Chan} (h : ¬ isPulse c) (q : Pulse) : chanOf q ≠ c := fun e => h (e ▸ q.isLt)

theorem not_isPulse_of_eq_three {c : Chan} (h : c = 3) : ¬ isPulse c := by simp [h]

/-- The state with the oscillator of the channel being stepped rewritten by `f`. -/
def State.modifyOsc (s : State) (h : isPulse s.chan) (f : Osc → Osc) : State :=
  s.setOsc (pulseOf s.chan h) (f (s.osc (pulseOf s.chan h)))

section
variable {s : State}

/-! ### What the events answer -/

theorem exec_rest_pulse (d : Nibble) (h : isPulse s.chan) :
    exec (.rest d) s = .next (soundingTail d (s.modifyOsc h fun o => { o with duty := 0 })) := dif_pos h

theorem exec_rest_wait (d : Nibble) (h : ¬ isPulse s.chan) : exec (.rest d) s = .next (soundingTail d s) := dif_neg h

theorem exec_note_pulse (p : NoteIndex) (d : Nibble) (h : isPulse s.chan) :
    exec (.note p d) s = .next (soundingTail d (s.modifyOsc h fun o =>
      { o with period := noteRom s.cfg p, duty := noteRom s.cfg p >>> s.here.vol.toNat })) := dif_pos h

theorem exec_note_sample {p : NoteIndex} (d : Nibble) (hs : s.chan = 3) (hp : p.val ≤ 5) :
    exec (.note p d) s = .next (soundingTail d (sampleSelect p hp s)) :=
  (dif_neg (not_isPulse_of_eq_three hs)).trans (dif_pos hp)

theorem exec_note_fault {p : NoteIndex} (d : Nibble) (hs : s.chan = 3) (hp : 6 ≤ p.val) :
    exec (.note p d) s = .next (raiseFault .sampleId s.at s) :=
  (dif_neg (not_isPulse_of_eq_three hs)).trans (dif_neg (by omega))

/-! ### The rewritten oscillator -/

theorem State.osc_modifyOsc (h : isPulse s.chan) (f : Osc → Osc) (c : Pulse) :
    (s.modifyOsc h f).osc c = if chanOf c = s.chan then f (s.osc c) else s.osc c := by
  simp only [State.modifyOsc, State.osc_setOsc, chanOf_eq_iff h]
  split
  · next hc => rw [hc]
  · rfl

/-- A command that keeps the phase writes nothing of its oscillator that the frame speaks of. -/
theorem modifyOsc_frame (h : isPulse s.chan) {f : Osc → Osc} (hf : ∀ o, (f o).phase = o.phase) :
    commandFrame s (s.modifyOsc h f) := by
  refine ⟨⟨rfl, fun _ => rfl, rfl⟩, ⟨rfl, rfl, rfl⟩, ⟨rfl, rfl, fun c => ?_⟩, rfl, fun _ _ => rfl⟩
  rw [State.osc_modifyOsc]
  split
  · exact hf _
  · rfl

/-- A sounding event on a pulse channel: the oscillator is rewritten by `f`, which keeps the phase, and the common tail
follows (R230, R231, R234). -/
theorem soundingTail_modifyOsc (d : Nibble) (h : isPulse s.chan) {f : Osc → Osc} (hf : ∀ o, (f o).phase = o.phase) :
    commandFrame s (soundingTail d (s.modifyOsc h f)) ∧ channelDone s (soundingTail d (s.modifyOsc h f)) ∧
    (soundingTail d (s.modifyOsc h f)).bank s.chan =
      { s.here with len := durRom s.cfg d, cur := s.here.cur + 1 } ∧
    (∀ c : Pulse, (soundingTail d (s.modifyOsc h f)).osc c =
      if chanOf c = s.chan then f (s.osc c) else s.osc c) ∧
    sameWindow s (soundingTail d (s.modifyOsc h f)) ∧
    (soundingTail d (s.modifyOsc h f)).tempoReload = s.tempoReload := by
  obtain ⟨frame, done, bank, osc, rest⟩ := soundingTail_done d (s.modifyOsc h f)
  exact ⟨commandFrame_trans (s.modifyOsc h f) rfl (modifyOsc_frame h hf) frame, done, bank,
    fun c => (osc c).trans (State.osc_modifyOsc h f c), rest⟩

end

/-! ### The obligations -/

/-- Settles O30: a zero threshold and the common tail on a pulse channel, the tail alone on channel 3. -/
theorem restSilencesAndWaits : Obligations.RestSilencesAndWaits := by
  intro d s
  by_cases h : isPulse s.chan
  · exact ⟨_, exec_rest_pulse d h, soundingTail_modifyOsc d h fun _ => rfl⟩
  · obtain ⟨frame, done, bank, osc, rest⟩ := soundingTail_done d s
    refine ⟨_, exec_rest_wait d h, frame, done, bank, fun c => ?_, rest⟩
    rw [osc, if_neg (chanOf_ne_of_not_isPulse h c)]

/-- Settles O31: the note's period and threshold on a pulse channel; on channel 3 the waveform, or the fault entry. -/
theorem noteLoadsPeriodOrWaveform : Obligations.NoteLoadsPeriodOrWaveform := by
  intro p d s _
  refine ⟨fun h => ?_, fun hs hp => ?_, fun hs hp => ?_⟩
  · exact ⟨_, exec_note_pulse p d h, soundingTail_modifyOsc d h fun _ => rfl⟩
  · obtain ⟨_, selectFrame, _⟩ := soundingPart_frame (.inr (.inr ⟨hs, p, d, hp, rfl, rfl⟩))
    obtain ⟨frame, done, bank, osc, ⟨hscur, hsend⟩, tempo⟩ := soundingTail_done d (sampleSelect p hp s)
    exact ⟨_, exec_note_sample d hs hp, commandFrame_trans (sampleSelect p hp s) rfl selectFrame frame, done, bank, osc,
      hscur, hsend, tempo⟩
  · exact ⟨_, exec_note_fault d hs hp, raiseFault_entered .sampleId s.at s⟩

end Sys2Proof.Machine

/-! What commands write and what the fault record does (10_state.md section 2, 60_exceptions.md). Outside its channel's bank
a command writes registers only as TEMPO or before the tail of a sounding event, unless it faults. A step keeps `FAULT`
unless it enters a fault in a pass or takes a host command or `RESET`. -/

namespace Sys2Proof.Machine

section
variable {s t : State}

/-! ### What a command writes outside its channel's bank -/

/-- Before its tail a sounding event writes an oscillator of its channel alone, or, as NOTE on channel 3, the window. -/
theorem soundingPart_writes {i : Instr} {u : State} (h : soundingPart i s u) :
    u.tempoReload = s.tempoReload ∧ (sameWindow s u ∨ s.chan = 3 ∧ ∃ p d, i = .note p d) ∧
    ∀ c, u.osc c ≠ s.osc c → chanOf c = s.chan := by
  rcases h with rfl | ⟨hc, o, _, _, rfl⟩ | ⟨hc, p, d, _, hi, rfl⟩
  · exact ⟨rfl, .inl ⟨rfl, rfl⟩, fun c hosc => absurd rfl hosc⟩
  · refine ⟨rfl, .inl ⟨rfl, rfl⟩, fun c hosc => (chanOf_eq_iff hc c).mpr ?_⟩
    by_contra hne
    exact hosc (by rw [State.osc_setOsc, if_neg hne])
  · exact ⟨rfl, .inr ⟨hc, p, d, hi⟩, fun c hosc => absurd rfl hosc⟩

/-- The frame of every command (R20, R43, R85). -/
theorem exec_frame {i : Instr} (h : exec i s = .next t) : commandFrame s t := by
  obtain ⟨u, hu, hends⟩ := exec_ends i s
  obtain rfl : u = t := Host.Outcome.next.inj (hu.symm.trans h)
  rcases hends with ⟨_, frame, _⟩ | ⟨_, frame, _⟩ | ⟨_, _, _, _, _, _, _, _, _, _, frame, _⟩ <;> exact frame

/-! ### The fault record -/

/-- A step of a pass keeps the record or enters a fault, and no pass raises `F_PROG_LEN` (R253). -/
theorem step_pass_record (hp : s.inPass = true) (hstep : step s = .next t) :
    sameRecord s t ∨
    ∃ cause x, faultEntered cause x s t ∧ cause ≠ .progLen ∧ (cause ≠ .fetchRange → x = s.at) := by
  obtain ⟨u, hu, _, hcases⟩ := step_pass_cases s hp
  obtain rfl : u = t := Host.Outcome.next.inj (hu.symm.trans hstep)
  rcases hcases with ⟨_, ⟨_, _, _, _, _, record⟩, _⟩ | ⟨record, _⟩ | ⟨cause, x, hcause, haddr, entered⟩
  · exact .inl record
  · exact .inl record
  · exact .inr ⟨cause, x, entered, hcause, haddr⟩

theorem startTick_fault (s : State) : (startTick s).fault = s.fault := by
  obtain ⟨_, _, _, _, _, _, hfault, _⟩ := startTick_fields s
  exact hfault

/-- A TICK keeps `FAULT`; every other strobe is a host command, with or without a TICK, or `RESET`. -/
theorem takeStrobe_fault (s : State) :
    (takeStrobe s).fault = s.fault ∨
    ∃ rest, (∃ k, s.schedule = .command k :: rest ∨ s.schedule = .both k :: rest) ∨ s.schedule = .reset :: rest := by
  unfold takeStrobe
  split
  · exact .inl (startTick_fault s)
  · next rest _ => exact .inl (startTick_fault { s with schedule := rest })
  · next k rest hs => exact .inr ⟨rest, .inl ⟨k, .inl hs⟩⟩
  · next k rest hs => exact .inr ⟨rest, .inl ⟨k, .inr hs⟩⟩
  · next rest hs => exact .inr ⟨rest, .inr hs⟩

end

/-! ### The obligations -/

/-- Settles O44: the frame of every command, and what each of the four ways a command ends writes beside it. -/
theorem commandsReachOnlyTheirChannel : Obligations.CommandsReachOnlyTheirChannel := by
  intro i s t hexec
  refine ⟨exec_frame hexec, ?_⟩
  obtain ⟨u, hu, hcases⟩ := exec_cases i s
  obtain rfl : u = t := Host.Outcome.next.inj (hu.symm.trans hexec)
  rcases hcases with ⟨_, w, b, _, rfl⟩ | ⟨w, op, rfl, rfl⟩ | ⟨hi, d, v, hv, rfl⟩ | ⟨cause, x, _, _, rfl⟩
  · exact ⟨fun h => absurd rfl h, fun h => absurd ⟨rfl, rfl⟩ h, fun c h => absurd rfl h⟩
  · exact ⟨fun _ => ⟨op, rfl⟩, fun h => absurd ⟨rfl, rfl⟩ h, fun c h => absurd rfl h⟩
  · obtain ⟨htempo, hwindow, hosc⟩ := soundingPart_writes hv
    obtain ⟨_, _, _, osc, ⟨hscur, hsend⟩, tempo⟩ := soundingTail_done d v
    refine ⟨fun h => absurd (tempo.trans htempo) h, fun h => hwindow.resolve_left ?_, fun c h => ⟨hosc c ?_, hi⟩⟩
    · rintro ⟨hscur', hsend'⟩
      exact h ⟨hscur.trans hscur', hsend.trans hsend'⟩
    · rwa [osc] at h
  · exact ⟨fun h => absurd rfl h, fun h => absurd ⟨rfl, rfl⟩ h, fun c h => absurd rfl h⟩

/-- Settles O45: a step of a pass that does not keep the record enters a fault. -/
theorem faultsArePrecise : Obligations.FaultsArePrecise := by
  intro s t hp hs hstep ht
  refine (step_pass_record hp hstep).resolve_left ?_
  rintro ⟨hfault, _⟩
  simp [hs, ht] at hfault

/-- Settles O46: no step of a pass clears `FAULT`, and between the core's steps no TICK does. -/
theorem onlyTheHostClearsAFault : Obligations.OnlyTheHostClearsAFault := by
  intro s t hs hstep ht
  cases hp : s.inPass with
  | true =>
    exfalso
    rcases step_pass_record hp hstep with ⟨hfault, _⟩ | ⟨_, _, ⟨hfault, _⟩, _⟩
    · simp [hs, ht] at hfault
    · simp [ht] at hfault
  | false =>
    rw [step_strobe hp] at hstep
    cases hstep
    refine ⟨rfl, (takeStrobe_fault s).resolve_left ?_⟩
    simp [hs, ht]

end Sys2Proof.Machine

/-! The opcode table and the written-out words (30_encoding.md). A byte matches a row of its command's mnemonic since it
begins that command's encoding, and two rows that share a byte are one row. -/

namespace Sys2Proof

/-- The encoding of every well-formed command begins with a byte that a row of its mnemonic matches. -/
theorem tableRow_of_wellFormed (i : Instr) : Laws.TableRow.Statement i := by
  cases i with
  | rest d => exact Laws.TableRow.rest d
  | note p d => exact Laws.TableRow.note p d
  | oct n => exact Laws.TableRow.oct n
  | vol v => exact Laws.TableRow.vol v
  | illegalVol x => exact Laws.TableRow.illegalVol x
  | loops op => exact Laws.TableRow.loops op
  | loope => exact Laws.TableRow.loope
  | call op => exact Laws.TableRow.call op
  | tempo op => exact Laws.TableRow.tempo op
  | rsv4 op => exact Laws.TableRow.rsv4 op
  | rsv5 op => exact Laws.TableRow.rsv5 op
  | tie => exact Laws.TableRow.tie
  | illegalExt lo => exact Laws.TableRow.illegalExt lo
  | ret => exact Laws.TableRow.ret

/-- A first byte matches a row of its command's mnemonic. -/
theorem exists_row_matches (b op : Byte) :
    ∃ r ∈ opcodeTable, r.matches b = true ∧ r.mnemonic = (decodeCommand b op).mnemonic := by
  obtain ⟨hw, _, hbytes⟩ := encodeInvertsDecode _ _ _ (decode_pair b op)
  obtain ⟨b', rest, hencode, r, hr, hmnemonic, hmatch⟩ := tableRow_of_wellFormed _ hw
  rw [hencode] at hbytes
  obtain ⟨rfl, _⟩ := List.cons.inj hbytes
  refine ⟨r, hr, hmatch, ?_⟩
  rw [hmnemonic, decodeCommand_mnemonic, decodeCommand_mnemonic b' op]

/-- Two rows whose patterns agree on the bits that both masks look at are one row. -/
theorem row_unique : ∀ r ∈ opcodeTable, ∀ r' ∈ opcodeTable,
    r.pattern &&& r'.mask = r'.pattern &&& r.mask → r' = r := by
  decide

/-- The patterns of two rows that match the same byte agree on the bits that both masks look at. -/
theorem patterns_agree_of_matches {r r' : OpcodeRow} {b : Byte} (h : r.matches b = true) (h' : r'.matches b = true) :
    r.pattern &&& r'.mask = r'.pattern &&& r.mask := by
  rw [← eq_of_beq h, ← eq_of_beq h', BitVec.and_assoc, BitVec.and_comm r.mask, BitVec.and_assoc]

/-- Settles O4: the row of the encoding that the byte begins, and no other row matches it. -/
theorem oneOpcodeRowPerFirstByte : Obligations.OneOpcodeRowPerFirstByte := by
  intro b op
  obtain ⟨r, hr, hmatch, hmnemonic⟩ := exists_row_matches b op
  exact ⟨r, hr, hmatch, hmnemonic, fun r' hr' hmatch' =>
    row_unique r hr r' hr' (patterns_agree_of_matches hmatch hmatch')⟩

/-- Settles O6: each word is the encoding of its command. -/
theorem writtenOutWordsDecode : Obligations.WrittenOutWordsDecode :=
  ⟨decodeInvertsEncode (.rest 15#4) [] rfl, decodeInvertsEncode (.note 1 0#4) [] rfl,
    decodeInvertsEncode (.note 12 7#4) [] rfl, decodeInvertsEncode (.oct 3#4) [] rfl,
    decodeInvertsEncode (.vol 0#3) [] rfl, decodeInvertsEncode (.illegalVol 0#3) [] rfl,
    decodeInvertsEncode (.loops 3#8) [] rfl, decodeInvertsEncode (.call 0#8) [] rfl,
    decodeInvertsEncode (.tempo 64#8) [] rfl, decodeInvertsEncode .ret [0b00010000#8] rfl⟩

end Sys2Proof

/-! PLAY (40_control_commands.md R132, 10_state.md R45): what it makes of an accepted length and of a refused one. -/

namespace Sys2Proof.Machine

section
variable {s : State} {image : List Byte} {len : Nat} {macros : BitVec 9}

theorem doPlay_refused (h : len < 8 ∨ 65535 < len) :
    doPlay image len macros s = raiseFault .progLen 0 (doInit { s with mem := s.mem.load 0 image }) := if_pos h

theorem doPlay_accepted (h : 8 ≤ len ∧ len ≤ 65535) :
    doPlay image len macros s =
      { doInit { s with mem := s.mem.load 0 image } with
        banks := Vector.ofFn (playBank s.cfg (s.mem.load 0 image))
        oscs := Vector.replicate 3 (playOsc s.cfg)
        tempoReload := s.cfg.tempoReset
        bound := true
        progLen := BitVec.ofNat 16 len
        macroCount := macros } := if_neg (by omega)

theorem bank_doPlay (h : 8 ≤ len ∧ len ≤ 65535) (c : Chan) :
    (doPlay image len macros s).bank c = playBank s.cfg (s.mem.load 0 image) c := by
  simp [doPlay_accepted h, State.bank]

theorem osc_doPlay (h : 8 ≤ len ∧ len ≤ 65535) (c : Pulse) :
    (doPlay image len macros s).osc c = playOsc s.cfg := by
  simp [doPlay_accepted h, State.osc]

theorem progLen_doPlay (h : 8 ≤ len ∧ len ≤ 65535) : (doPlay image len macros s).progLen.toNat = len := by
  rw [doPlay_accepted h]
  exact Nat.mod_eq_of_lt (by omega)

theorem doPlay_betweenSteps : betweenSteps (doPlay image len macros s) := by
  unfold doPlay
  split <;> exact ⟨rfl, rfl, rfl, rfl⟩

end

/-- Settles O13: the registers of R45 for an accepted length, and INIT's with the fault record for a refused one. -/
theorem playBindsOrRefuses : Obligations.PlayBindsOrRefuses := by
  intro s image len macros rest hp hs
  obtain ⟨hcfg, hmem, hsch⟩ := doPlay_environment image len macros { s with schedule := rest }
  refine ⟨doPlay image len macros { s with schedule := rest }, ?step, doPlay_betweenSteps, hcfg, hmem, hsch,
    fun hlen => ?accepted, fun hlen => ?refused⟩
  case step => rw [step_strobe hp, takeStrobe, hs]; rfl
  case accepted =>
    refine ⟨?record, ?bound, progLen_doPlay hlen, ?macros, ?out, ?tempoCnt, ?tempoReload, ?sdiv, ?scur, ?send, ?outBits,
      fun c => ?banks, fun c => ?oscs⟩
    case banks =>
      rw [bank_doPlay hlen, hmem]
      refine ⟨Memory.word_toNat _ _, rfl, rfl, fun k => ?_, rfl, rfl, rfl, rfl⟩
      simp [playBank, Bank.zero]
    case oscs => rw [osc_doPlay hlen]; exact ⟨rfl, rfl, rfl⟩
    all_goals rw [doPlay_accepted hlen]
    case record => exact doInit_recordClear { s with mem := s.mem.load 0 image, schedule := rest }
    case outBits => simp [State.outBit, doInit, State.reset]
    all_goals rfl
  case refused =>
    rw [doPlay_refused hlen]
    exact ⟨doInit_registersZero { s with mem := s.mem.load 0 image, schedule := rest }, rfl, rfl, rfl, rfl⟩

end Sys2Proof.Machine

/-! The extended commands LOOPS, CALL and TEMPO (43_extended_commands.md), once their operand is read. -/

namespace Sys2Proof.Machine

section
variable {s t : State} {op : Byte}

/-! ### LOOPS -/

theorem exec_loops_zero : exec (.loops 0#8) s = .next (raiseFault .loopCount s.at s) := rfl

theorem exec_loops_full (hop : op ≠ 0#8) (h : s.here.lsp.val = 5) :
    exec (.loops op) s = .next (raiseFault .loopOvf s.at s) :=
  (if_neg hop).trans (dif_neg (by omega))

theorem loopCountOf_toNat (hop : op ≠ 0#8) : (loopCountOf op).toNat + 1 = op.toNat := by
  unfold loopCountOf
  bv_omega

/-! ### CALL -/

theorem exec_call_undefined (h : s.macroCount.toNat ≤ op.toNat) :
    exec (.call op) s = .next (raiseFault .macroId s.at s) := if_pos h

theorem exec_call_outside {x : Nat} (h : op.toNat < s.macroCount.toNat)
    (hread : memRead2 s (2 * (op.toNat + 4)) = .error x) :
    exec (.call op) s = .next (raiseFault .fetchRange x s) := by
  simp [exec, execCall, slotAddr, macroSlot, macroUndefined, h, hread]

theorem exec_call_jump {w : Word} (h : op.toNat < s.macroCount.toNat)
    (hread : memRead2 s (2 * (op.toNat + 4)) = .ok w) :
    exec (.call op) s = .next (continueAt w (s.setHere { s.here with ret := s.here.cur + 2, retv := true })) := by
  simp [exec, execCall, slotAddr, macroSlot, macroUndefined, h, hread]

/-- A CALL that does not fault saves the offset of the byte after its operand, whatever its slot held (R193). -/
theorem call_saves_return (h : exec (.call op) s = .next t) (hf : t.fault = false) :
    (t.bank s.chan).ret = s.here.cur + 2 ∧ (t.bank s.chan).retv = true := by
  rcases Nat.lt_or_ge op.toNat s.macroCount.toNat with hm | hm
  · cases hread : memRead2 s (2 * (op.toNat + 4)) with
    | error x =>
      rw [exec_call_outside hm hread] at h
      cases h
      cases hf
    | ok w =>
      rw [exec_call_jump hm hread] at h
      cases h
      rw [bank_continueAt_setHere]
      exact ⟨rfl, rfl⟩
  · rw [exec_call_undefined hm] at h
    cases h
    cases hf

/-! ### TEMPO -/

/-- The reload value is the exact product: the shift drops no bit of the 16 (R194). -/
theorem tempoOf_toNat (op : Byte) : (tempoOf op).toNat = 16 * op.toNat := by
  unfold tempoOf
  bv_omega

end

/-! ### The obligations -/

/-- Settles O34: the push on a stack with room, and the two faults. -/
theorem loopsPushesOrFaults : Obligations.LoopsPushesOrFaults := by
  intro op s
  refine ⟨fun hop hroom => ?push, ?count, fun hop hfull => ?depth⟩
  case push =>
    obtain ⟨k, hk⟩ : ∃ k : Fin 5, s.here.lsp.val = k.val := ⟨⟨_, hroom⟩, rfl⟩
    obtain ⟨frame, goesOn, hbank, rest⟩ := continueAt_setHere_frame (s.here.cur + 2)
      { s.here with
        lret := s.here.lret.set k (s.here.cur + 2), lcnt := s.here.lcnt.set k (loopCountOf op), lsp := k.succ } s
    refine ⟨_, exec_loops_push hop hk, frame, goesOn, ?lsp, fun j => ?lret, fun j hj => ?pushed, fun j hj => ?kept,
      ?bank, rest⟩ <;> rw [hbank]
    case lsp => simp [hk]
    case lret => simp [hk, Vector.getElem_set, eq_comm]
    case pushed =>
      obtain rfl : j = k := Fin.ext (hj.trans hk)
      simpa using loopCountOf_toNat hop
    case kept => simp [Ne.symm (hk ▸ hj)]
  case count =>
    rintro rfl
    exact ⟨_, exec_loops_zero, raiseFault_entered _ _ s⟩
  case depth => exact ⟨_, exec_loops_full hop hfull, raiseFault_entered _ _ s⟩

/-- Settles O37: the jump, the id that names no slot, and the slot that does not lie in the program. -/
theorem callJumpsThroughSlotOrFaults : Obligations.CallJumpsThroughSlotOrFaults := by
  intro op s
  refine ⟨fun hm hlen => ?_, fun hm => ⟨_, exec_call_undefined hm, raiseFault_entered _ _ s⟩,
    fun hm hlen => ⟨_, exec_call_outside hm (memRead2_of_ge hlen), raiseFault_entered _ _ s⟩,
    fun hm hlen => ⟨_, exec_call_outside hm (memRead2_of_eq hlen), raiseFault_entered _ _ s⟩⟩
  obtain ⟨frame, goesOn, hbank, rest⟩ := continueAt_setHere_frame (s.mem.word (2 * (op.toNat + 4)))
    { s.here with ret := s.here.cur + 2, retv := true } s
  refine ⟨_, exec_call_jump hm (memRead2_of_lt hlen), frame, goesOn, ?_, ?_, rest⟩ <;> rw [hbank]
  exact Memory.word_toNat s.mem _

/-- Settles O39: the CALL has saved the offset, and the RET that finds it returns there. -/
theorem retResumesAfterTheLatestCall : Obligations.RetResumesAfterTheLatestCall := by
  intro op s t u hcall hf hchan hret hretv
  obtain ⟨hsaved, hvalid⟩ := call_saves_return hcall hf
  refine ⟨_, exec_ret_return (hretv.trans hvalid), ?_⟩
  rw [← hchan, bank_continueAt_setHere]
  exact ⟨hret.trans hsaved, rfl⟩

/-- Settles O40: TEMPO writes the reload and moves the cursor. -/
theorem tempoSetsReload : Obligations.TempoSetsReload := by
  intro op s
  obtain ⟨frame, goesOn, bank⟩ := continueAt_goesOn (s.here.cur + 2) { s with tempoReload := tempoOf op }
  exact ⟨_, rfl, frame, goesOn, tempoOf_toNat op, bank, fun _ => rfl, rfl, rfl⟩

end Sys2Proof.Machine

/-! What a step does next (42_sequencer_dispatch.md): the command placed at the cursor is run by the next step, and
every step answers a state. -/

namespace Sys2Proof.Machine

/-! ### A placed command (log entry 7) -/

/-- The channel that `placeCommand` has fetch next. -/
def placeChan (s : State) : Chan := if s.inPass = true then s.chan else 0

/-- The offset at which `placeCommand` puts the first byte. -/
def placeOffset (s : State) : Nat :=
  if (s.bank (placeChan s)).cur.toNat < 65534 then (s.bank (placeChan s)).cur.toNat else 0

theorem placeOffset_lt (s : State) : placeOffset s < 65534 := by
  unfold placeOffset
  split <;> omega

section
variable (s : State) (b op : Byte)

theorem placeCommand_here :
    (placeCommand s b op).here =
      { s.bank (placeChan s) with cur := BitVec.ofNat 16 (placeOffset s), len := 0 } :=
  State.bank_setBank_self s (placeChan s) _

theorem placeCommand_at : (placeCommand s b op).at = placeOffset s := by
  have hlt := placeOffset_lt s
  rw [State.at, placeCommand_here]
  exact Nat.mod_eq_of_lt (by omega)

/-- A placed command is fetched: its channel does not hold. -/
theorem placeCommand_fetches : fetches (placeCommand s b op) :=
  ⟨rfl, .inr (congrArg Bank.len (placeCommand_here s b op))⟩

/-- The two bytes lie inside the program. -/
theorem placeCommand_progLen : (placeCommand s b op).at + 2 ≤ (placeCommand s b op).progLen.toNat := by
  have hlt := placeOffset_lt s
  have hlen := s.progLen.isLt
  rw [placeCommand_at]
  show _ ≤ (BitVec.ofNat 16 (max s.progLen.toNat (placeOffset s + 2))).toNat
  rw [BitVec.toNat_ofNat, Nat.mod_eq_of_lt (by omega)]
  exact Nat.le_max_right _ _

/-- The two bytes read back at the cursor. -/
theorem placeCommand_read (hm : s.mem.wf = true) :
    (placeCommand s b op).mem.read (placeCommand s b op).at = b ∧
    (placeCommand s b op).mem.read ((placeCommand s b op).at + 1) = op := by
  have hlt := placeOffset_lt s
  have hread (x : Nat) : (placeCommand s b op).mem.read x =
      if x = placeOffset s + 1 then op else if x = placeOffset s then b else s.mem.read x := by
    show ((s.mem.place (placeOffset s) b).place (placeOffset s + 1) op).read x = _
    rw [Memory.read_place (Memory.wf_place hm _ b) (by omega), Memory.read_place hm (by omega)]
  rw [placeCommand_at, hread, hread]
  simp

/-- The next step runs the command that the two placed bytes hold; no administrative command has been counted. -/
theorem step_placeCommand (hm : s.mem.wf = true) :
    step (placeCommand s b op) =
      exec (decodeCommand b (if takesOperand b then op else 0#8)) (placeCommand s b op) := by
  obtain ⟨hfirst, hsecond⟩ := placeCommand_read s b op hm
  have hlen := placeCommand_progLen s b op
  refine stepRunsTheDecodedCommand _ _ (if takesOperand b then [] else [op]) (placeCommand_fetches s b op) ?_ ?_
    (.inr (Nat.succ_ne_zero _).symm)
  · rw [hfirst, hsecond, decode_pair]
  · rw [decodeCommand_length]
    split <;> omega

end

/-! ### The obligations -/

/-- Settles O27: the word's two bytes are placed, and they decode to its command. -/
theorem fetchWordRunsNext : Obligations.FetchWordRunsNext := by
  intro s nbits w i hm hdec
  rw [decodeTableWord_eq] at hdec
  obtain rfl := Option.some.inj hdec
  exact step_placeCommand s _ _ hm

/-- Settles O47: a strobe, or a step of a pass. -/
theorem everyStepAnswersNext : Obligations.EveryStepAnswersNext := by
  intro s
  cases hp : s.inPass with
  | true =>
    obtain ⟨t, hstep, _⟩ := step_pass_cases s hp
    exact ⟨t, hstep⟩
  | false => exact ⟨takeStrobe s, step_strobe hp⟩

end Sys2Proof.Machine
